-- ==== Sys2Proof/Word.lean ====
section
/-!
DEFINITION. The bit-vector types the interface carries (R21, R60) and the two closed lists of names the rules are
parameterised by: the three word widths (R7) and the three native formats (R68). What each width and each format
IS (its field widths, its bias) stands in Machine/Operands.lean.
-/

namespace Sys2Proof

/-- The 64-bit operand port A and result port R (R21). -/
abbrev PortWord := BitVec 64

/-- The 3-bit operation select OP (R21, R61). -/
abbrev OpCode := BitVec 3

/-- The whole request RQ[66:0] = OP then A (R60). -/
abbrev RequestWord := BitVec 67

/-- The three MIL-1750A word widths (R1, R7). -/
inductive Width where
  /-- 16-bit (short). -/
  | w16
  /-- 32-bit (standard). -/
  | w32
  /-- 48-bit (extended). -/
  | w48
  deriving DecidableEq, Repr

/-- The three native IEEE-754 formats (R68). -/
inductive Fmt where
  /-- 16 bits: 1 sign, 5 exponent, 10 fraction. -/
  | binary16
  /-- 32 bits: 1 sign, 8 exponent, 23 fraction. -/
  | binary32
  /-- 64 bits: 1 sign, 11 exponent, 52 fraction. -/
  | binary64
  deriving DecidableEq, Repr

end Sys2Proof
end

