-- ==== Sys2Proof/Syntax.lean ====
section
/-!
DEFINITION. The six operations, one constructor per row of spec/opcode_table.json (R1, R61). Each carries the
whole 64-bit operand port A, because the operation itself examines the bits above its operand (R120 to R122,
R160 to R162: the first line of each pseudocode).
-/

namespace Sys2Proof

/-- A request whose OP selects an operation (R61). -/
inductive Instr where
  /-- ENC16 (R120): the binary16 value in A[15:0] to a 16-bit word. -/
  | enc16 (a : PortWord)
  /-- ENC32 (R121): the binary32 value in A[31:0] to a 32-bit word. -/
  | enc32 (a : PortWord)
  /-- ENC48 (R122): the binary64 value in A[63:0] to a 48-bit word. -/
  | enc48 (a : PortWord)
  /-- DEC16 (R160): the 16-bit word in A[15:0] to a binary16 value. -/
  | dec16 (a : PortWord)
  /-- DEC32 (R161): the 32-bit word in A[31:0] to a binary32 value. -/
  | dec32 (a : PortWord)
  /-- DEC48 (R162): the 48-bit word in A[47:0] to a binary64 value. -/
  | dec48 (a : PortWord)
  deriving DecidableEq, Repr

/-- The operand port A of a request. -/
def Instr.operand : Instr → PortWord
  | .enc16 a => a
  | .enc32 a => a
  | .enc48 a => a
  | .dec16 a => a
  | .dec32 a => a
  | .dec48 a => a

end Sys2Proof
end

