-- ==== Sys2Proof/WellFormed.lean ====
section
/-!
DEFINITION. When a request matches its row of spec/opcode_table.json: its required-zero bits are all 0 (R62). A
request that is not well formed is still answered: its meaning raises IllegalOperand (R204).
-/

namespace Sys2Proof

/-- How many low bits of A the operand takes: the column n of R62. -/
def Instr.operandBits : Instr → Nat
  | .enc16 _ => 16
  | .enc32 _ => 32
  | .enc48 _ => 64
  | .dec16 _ => 16
  | .dec32 _ => 32
  | .dec48 _ => 48

/-- R62: every bit of A above the operand is 0. -/
def Instr.wellFormed (i : Instr) : Bool :=
  i.operand >>> i.operandBits == 0

end Sys2Proof
end

