-- ==== Sys2Proof/Decode.lean ====
section
/-!
DEFINITION. The request decoder, total on every 67-bit word and rejecting the two reserved codes by name (R60, R61,
R72, R75), and after it the encoder, written from the same table.
-/

namespace Sys2Proof

/-- What the decoder answers. -/
inductive Decoded where
  /-- OP selects an operation. -/
  | instr (i : Instr)
  /-- OP is one of the reserved codes 0b011 and 0b111, which select none (R72). -/
  | reservedOp (op : OpCode)
  deriving DecidableEq, Repr

/-- OP = RQ[66:64] (R60). -/
def opField (rq : RequestWord) : OpCode := rq.extractLsb' 64 3

/-- A = RQ[63:0] (R60). -/
def operandField (rq : RequestWord) : PortWord := rq.extractLsb' 0 64

/-- The decoder of requests: OP first (R75), by the table of R61. A reserved code's operand is not examined (R72);
an operand with bits above its width is passed on whole, and the operation raises IllegalOperand for it (R73). -/
def decode (rq : RequestWord) : Decoded :=
  let a := operandField rq
  match (opField rq).toNat with
  | 0b000 => .instr (.enc16 a)
  | 0b001 => .instr (.enc32 a)
  | 0b010 => .instr (.enc48 a)
  | 0b100 => .instr (.dec16 a)
  | 0b101 => .instr (.dec32 a)
  | 0b110 => .instr (.dec48 a)
  | _ => .reservedOp (opField rq)

/-- The operation code of each operation: the OP column of R61. -/
def opcodeOf : Instr → OpCode
  | .enc16 _ => 0b000#3
  | .enc32 _ => 0b001#3
  | .enc48 _ => 0b010#3
  | .dec16 _ => 0b100#3
  | .dec32 _ => 0b101#3
  | .dec48 _ => 0b110#3

/-- The request word of an operation: OP above A (R60). -/
def encode (i : Instr) : RequestWord := opcodeOf i ++ i.operand

/-- The request word whose bits are the low nbits of w, numbered as spec/opcode_table.json numbers them: bit 0 is
bit 0 of A, bits 66:64 are OP. The request has 67 bits and no more (R60), so nothing above bit 66 is carried. -/
def requestWordOfTable (nbits w : Nat) : RequestWord := BitVec.ofNat 67 (w % 2 ^ nbits)

/-- The operation the decoder reads from a word of the opcode table; none where it rejects the word. -/
def decodeTableWord (nbits w : Nat) : Option Instr :=
  match decode (requestWordOfTable nbits w) with
  | .instr i => some i
  | .reservedOp _ => none

end Sys2Proof
end

