-- ==== Sys2Proof/Config.lean ====
section
/-!
DEFINITION. What is fixed when the block is built: the four behaviour parameters of R8, as plain data that State
carries and no operation writes (R24), and the one free value of this model (log entry 6).
-/

namespace Sys2Proof

/-- P_TIES (R8, R104): which integer an encoder's rounding takes when the scaled mantissa lies half way. -/
inductive Ties where
  /-- Ties go away from zero: the default. -/
  | away
  /-- Ties go to the even integer: the alternative. -/
  | even
  deriving DecidableEq, Repr

/-- The behaviour parameters of R8. The other two parameters of R8 are not here: P_WIRE_BYTE_ORDER is outside the
block (R42), and N_INSTANCES is the number of entries of a Platform (R216, Machine/Platform.lean). -/
structure Params where
  /-- P_ENC16_BOUNDARY, an integer: the boundary constant B_16 of R106. -/
  enc16Boundary : Int
  /-- P_DEC16_SIGNED: DEC16 reads its mantissa as two's complement (R152). -/
  dec16Signed : Bool
  /-- P_DEC48_SIGNED: DEC48 reads its mantissa as two's complement (R152). -/
  dec48Signed : Bool
  /-- P_TIES: the tie rule of the encoders (R104). -/
  ties : Ties
  deriving DecidableEq, Repr

/-- R8's default of every parameter: the literal behaviour the source says to preserve. -/
def Params.literal : Params :=
  { enc16Boundary := 32768, dec16Signed := false, dec48Signed := false, ties := .away }

/-- DESIGN CHOICE (log entry 6). R106 halves the mantissa that equals the boundary constant, and R8 lets
P_ENC16_BOUNDARY be any integer: for an ODD one the half is no integer and the spec states no result. The value is
free: this constant has no body, so nothing can be proved of it. It is not reached under R8's default 32768 or its
alternative 512. -/
opaque Config.halfOfOdd : Int → Int

end Sys2Proof
end

