-- ==== Sys2Proof/Machine/Numeric.lean ====
section
/-!
DEFINITION. The exact arithmetic of R10 and R11. Every rational of this block is an integer times a power of two, so
a rational is held as that pair and no operation rounds unless a rule says so. Machine-independent: no State here.
-/

namespace Sys2Proof.Machine

/-- The exact rational num × 2^pow (R10: unbounded and exact). -/
structure Scaled where
  num : Int
  pow : Int
  deriving DecidableEq, Repr

/-- x × 2^k, exactly. -/
def Scaled.scale (x : Scaled) (k : Int) : Scaled := { x with pow := x.pow + k }

/-- x + y, exactly: both are brought to the smaller power of two. -/
def Scaled.add (x y : Scaled) : Scaled :=
  if x.pow ≤ y.pow then
    { num := x.num + y.num * 2 ^ (y.pow - x.pow).toNat, pow := x.pow }
  else
    { num := x.num * 2 ^ (x.pow - y.pow).toNat + y.num, pow := y.pow }

/-- The smallest k with n ≤ 2^k, for n ≥ 1. -/
def natCeilLog2 (n : Nat) : Nat := if n ≤ 2 ^ n.log2 then n.log2 else n.log2 + 1

/-- ceil_log2 of |x| for x ≠ 0 (R11, R103): the smallest integer e with |x| ≤ 2^e. -/
def Scaled.ceilLog2 (x : Scaled) : Int := x.pow + natCeilLog2 x.num.natAbs

/-- floor(log2 |x|) for x ≠ 0 (R154). -/
def Scaled.floorLog2 (x : Scaled) : Int := x.pow + x.num.natAbs.log2

/-- n / d to the nearest natural number, ties away from zero: ⌊n/d + 1/2⌋ (R104). -/
def divAway (n d : Nat) : Nat := (2 * n + d) / (2 * d)

/-- n / d to the nearest natural number, ties to the even one (R104, R154). -/
def divEven (n d : Nat) : Nat :=
  let q := n / d
  let r := n % d
  if 2 * r < d then q
  else if d < 2 * r then q + 1
  else if q % 2 = 0 then q else q + 1

/-- n / d to the nearest natural number by the tie rule t. -/
def divNearest (t : Ties) (n d : Nat) : Nat :=
  match t with
  | .away => divAway n d
  | .even => divEven n d

/-- n × 2^k to the nearest natural number by the tie rule t. -/
def roundNat (t : Ties) (n : Nat) (k : Int) : Nat :=
  if 0 ≤ k then n * 2 ^ k.toNat else divNearest t n (2 ^ (-k).toNat)

/-- round_T (R104): the nearest integer to y, by magnitude and sign, so that round_T(−y) = −round_T(y). -/
def Scaled.round (t : Ties) (y : Scaled) : Int := y.num.sign * roundNat t y.num.natAbs y.pow

/-- n with a minus sign where s holds. -/
def signed (s : Bool) (n : Nat) : Int := if s then -(n : Int) else n

/-- m / 2 for the m that equals the boundary constant (R106). For an odd m, which only a P_ENC16_BOUNDARY that R8
does not list can give, the spec states no result: a free value (DESIGN CHOICE, log entry 6). -/
def halve (m : Int) : Int := if m % 2 = 0 then m / 2 else Config.halfOfOdd m

end Sys2Proof.Machine
end

