-- ==== Sys2Proof/Machine/State.lean ====
section
/-!
DEFINITION. The state of the block as plain data. The spec gives it NO persistent state (R20): what stands here is
the fixed parameters of R8 and the transient values of the one operation in the block (R21): the request OP, A and
the response R, STATUS. There is no program counter, register, flag, memory, mode or counter to hold (R22 to R26,
R40, R212, R214), and R23 forbids a model to expose an operation's intermediate values.
-/

namespace Sys2Proof.Machine

/-- A request as the host drives it (R21, R60). -/
structure Request where
  /-- Operation select, 3 bits (R61). -/
  op : OpCode
  /-- Operand, 64 bits (R62). -/
  a : PortWord
  deriving DecidableEq, Repr

/-- The complete list of conditions a request can raise (R202). -/
inductive Condition where
  /-- An encoder's operand is NaN or an infinity (R205). STATUS 0b01. -/
  | nonFiniteInput
  /-- OP is a reserved code (R203). STATUS 0b10. -/
  | illegalOperation
  /-- A required-zero bit of A is 1 (R204). STATUS 0b11. -/
  | illegalOperand
  deriving DecidableEq, Repr

/-- The response of a request. R is defined only when STATUS = OK (R21); a raised condition sets STATUS to its code
and "a model must give R no value" (R201), so the second constructor carries none. -/
inductive Response where
  /-- STATUS = OK with the result R. -/
  | ok (r : PortWord)
  /-- STATUS is the condition's code; R has no value. -/
  | raised (c : Condition)
  deriving DecidableEq, Repr

/-- The state: R20's fixed parameters, and the request and response of the operation in the block (R21). -/
structure State where
  /-- The build-time parameters of R8. Every operation reads them; none writes them (R24). -/
  params : Params
  /-- OP and A as the host holds them, or none where the host makes no request (R28: no reset value, inputs). -/
  request : Option Request
  /-- R and STATUS as given for that request, or none where no response has been given (R28). Nothing in the block
  reads it (R25). -/
  response : Option Response
  deriving DecidableEq, Repr

/-- Why a step of the block could stop. NOTHING STOPS IT, so there is no constructor: every request receives a
response (R235), and a condition is reported in STATUS and never traps (R200), after which the next request runs as
after any other (R210). Safe: no false claim rests on a fault that is never raised. -/
inductive Fault where
  deriving DecidableEq, Repr

/-- Why a step could be refused. -/
inductive Refusal where
  /-- An operation without a meaning, by its mnemonic. Raised by nobody: all six operations have a meaning. Safe. -/
  | notModelled (mnemonic : String)
  deriving DecidableEq, Repr

/-- The block as built with parameters p, before its first request (R28, R232). -/
def State.build (p : Params) : State := { params := p, request := none, response := none }

/-- The state right after reset (R28): parameters at their build-time values, of which R8's defaults are taken (log
entry 3), no request and no response. -/
def State.reset : State := State.build Params.literal

end Sys2Proof.Machine
end

