-- ==== Sys2Proof/Machine/Operands.lean ====
section
/-!
DEFINITION. Operands and results: the native formats and their values (R68, R69), rounding a value into one (R154),
the constants of each word width (R7, R106), the operand-width check (R62), packing a MIL-1750A word (R64 to R66,
R107 to R110) and cutting one into fields (R71).
-/

namespace Sys2Proof

/-- w of R68: the width of the exponent field. -/
def Fmt.expBits : Fmt → Nat
  | .binary16 => 5
  | .binary32 => 8
  | .binary64 => 11

/-- p of R68: the width of the fraction field. -/
def Fmt.fracBits : Fmt → Nat
  | .binary16 => 10
  | .binary32 => 23
  | .binary64 => 52

/-- The exponent bias of R68. -/
def Fmt.bias : Fmt → Nat
  | .binary16 => 15
  | .binary32 => 127
  | .binary64 => 1023

/-- The index n − 1 of the sign bit (R68, R69). -/
def Fmt.signIndex (f : Fmt) : Nat := f.expBits + f.fracBits

/-- The native format a width converts from and to (R7, R70). -/
def Width.fmt : Width → Fmt
  | .w16 => .binary16
  | .w32 => .binary32
  | .w48 => .binary64

/-- F of R7: the mantissa's fractional bits. -/
def Width.fracBits : Width → Nat
  | .w16 => 9
  | .w32 => 23
  | .w48 => 39

/-- The boundary constant B_W of R106. -/
def Width.boundary (w : Width) (p : Params) : Int :=
  match w with
  | .w16 => p.enc16Boundary
  | .w32 => 2 ^ 23
  | .w48 => 2 ^ 39

end Sys2Proof

namespace Sys2Proof.Machine

/-- Whether a bit of A above its low n bits is 1 (R62, R73). -/
def wideOperand (n : Nat) (a : PortWord) : Bool := a >>> n != 0

/-- A response guarded by the operand-width check, which comes first (R204, R207). -/
def guardOperand (n : Nat) (a : PortWord) (r : Response) : Response :=
  if wideOperand n a then .raised .illegalOperand else r

/-! ### Native floats -/

/-- What a native bit pattern stands for (R68). -/
inductive IeeeValue where
  /-- Exponent field all ones, fraction not zero. -/
  | nan
  /-- Exponent field all ones, fraction zero, with the sign. -/
  | inf (negative : Bool)
  /-- Every other pattern: an exact rational. +0 and −0 are both the rational 0. -/
  | finite (x : Scaled)
  deriving DecidableEq, Repr

/-- signbit(b, fmt): bit n − 1 of the pattern (R69). -/
def signBit (f : Fmt) (b : PortWord) : Bool := b.getLsbD f.signIndex

/-- X of R68: the exponent field, unsigned. -/
def expField (f : Fmt) (b : PortWord) : Nat := b.toNat / 2 ^ f.fracBits % 2 ^ f.expBits

/-- T of R68: the fraction field, unsigned. -/
def fracField (f : Fmt) (b : PortWord) : Nat := b.toNat % 2 ^ f.fracBits

/-- ieee_value(b, fmt) (R68), of the low n bits of b. -/
def ieeeValue (f : Fmt) (b : PortWord) : IeeeValue :=
  let s := signBit f b
  let x := expField f b
  let t := fracField f b
  if x = 2 ^ f.expBits - 1 then
    if t = 0 then .inf s else .nan
  else if x = 0 then
    .finite { num := signed s t, pow := 1 - (f.bias : Int) - f.fracBits }
  else
    .finite { num := signed s (2 ^ f.fracBits + t), pow := (x : Int) - f.bias - f.fracBits }

/-- The pattern with sign s, exponent field x and fraction t, zero-extended to 64 bits (R63, R68). -/
def packIeee (f : Fmt) (s : Bool) (x t : Nat) : PortWord :=
  BitVec.ofNat 64 ((if s then 2 ^ f.signIndex else 0) + x * 2 ^ f.fracBits + t)

/-- R154's carry: a significand that rounded up to 2^(p+1) is 2^p in the next binade. -/
def carrySignificand (f : Fmt) (n : Nat) (e : Int) : Nat × Int :=
  if n = 2 ^ (f.fracBits + 1) then (2 ^ f.fracBits, e + 1) else (n, e)

/-- R154's last three lines: the pattern of a significand and exponent with sign s: an infinity above the greatest
exponent, a subnormal or zero below 2^p, else a normal number. -/
def packSignificand (f : Fmt) (s : Bool) (ne : Nat × Int) : PortWord :=
  if (f.bias : Int) < ne.2 then packIeee f s (2 ^ f.expBits - 1) 0
  else if ne.1 < 2 ^ f.fracBits then packIeee f s 0 ne.1
  else packIeee f s (ne.2 + f.bias).toNat (ne.1 - 2 ^ f.fracBits)

/-- The significand N and exponent E of R154 for a magnitude n × 2^pow, after the carry into the next binade. -/
def ieeeSignificand (f : Fmt) (v : Scaled) : Nat × Int :=
  let e := max v.floorLog2 (1 - (f.bias : Int))
  carrySignificand f (roundNat .even v.num.natAbs (v.pow + f.fracBits - e)) e

/-- to_ieee(v, fmt) (R154): the exact v rounded to the format, ties to even, zero-extended to 64 bits. -/
def toIeee (f : Fmt) (v : Scaled) : PortWord :=
  if v.num = 0 then 0 else packSignificand f (decide (v.num < 0)) (ieeeSignificand f v)

/-! ### MIL-1750A words -/

/-- PACK_16 (R64, R107, R110): 10 mantissa bits above 6 exponent bits, each reduced to its field. -/
def pack16 (m e : Int) : BitVec 16 :=
  ((BitVec.ofInt 10 m).setWidth 16 <<< 6) ||| (BitVec.ofInt 6 e).setWidth 16

/-- PACK_32 (R65, R107, R108): 24 mantissa bits above 8 exponent bits, and the input's sign ORed into bit 31. -/
def pack32 (m e : Int) (s : Bool) : BitVec 32 :=
  ((BitVec.ofInt 24 m).setWidth 32 <<< 8) ||| (BitVec.ofInt 8 e).setWidth 32
    ||| ((BitVec.ofBool s).setWidth 32 <<< 31)

/-- PACK_48 (R66, R107, R109): the high 24 mantissa bits, 8 exponent bits, the low 16 mantissa bits, and the input's
sign ORed into bit 47. -/
def pack48 (m e : Int) (s : Bool) : BitVec 48 :=
  let mf := BitVec.ofInt 40 m
  ((mf.extractLsb' 16 24).setWidth 48 <<< 24) ||| ((BitVec.ofInt 8 e).setWidth 48 <<< 16)
    ||| (mf.extractLsb' 0 16).setWidth 48 ||| ((BitVec.ofBool s).setWidth 48 <<< 47)

/-- PACK_W and the response's zero extension (R63, R100). -/
def packWord (w : Width) (m e : Int) (s : Bool) : PortWord :=
  match w with
  | .w16 => (pack16 m e).setWidth 64
  | .w32 => (pack32 m e s).setWidth 64
  | .w48 => (pack48 m e s).setWidth 64

/-- DEC16's exact value (R71, R151 to R153): exponent sext_6(w[5:0]), mantissa w[15:6] unsigned unless
P_DEC16_SIGNED. -/
def word16Value (dec16Signed : Bool) (a : PortWord) : Scaled :=
  let mf := a.extractLsb' 6 10
  let e := (a.extractLsb' 0 6).toInt
  { num := if dec16Signed then mf.toInt else mf.toNat, pow := e - 9 }

/-- DEC32's exact value (R71, R151 to R153): exponent sext_8(w[7:0]), mantissa sext_24(w[31:8]). -/
def word32Value (a : PortWord) : Scaled :=
  { num := (a.extractLsb' 8 24).toInt, pow := (a.extractLsb' 0 8).toInt - 23 }

/-- DEC48's exact value (R71, R151 to R153): exponent sext_8(w[23:16]); by default the sum of the two unsigned
halves' terms, under P_DEC48_SIGNED one 40-bit two's-complement mantissa. -/
def word48Value (dec48Signed : Bool) (a : PortWord) : Scaled :=
  let mh := a.extractLsb' 24 24
  let ml := a.extractLsb' 0 16
  let e := (a.extractLsb' 16 8).toInt
  if dec48Signed then
    { num := (mh ++ ml).toInt, pow := e - 39 }
  else
    Scaled.add { num := mh.toNat, pow := e - 23 } { num := ml.toNat, pow := e - 39 }

end Sys2Proof.Machine
end

