-- ==== Sys2Proof/Machine/Ops.lean ====
section
/-!
DEFINITION. The named operations over State: what the host does to the ports (R237), reading the request (R60),
giving a response (R21), raising a condition (R201), and reset (R230). There is no memory operation (R40), no
register file (R23) and no return from a condition (R210).
-/

namespace Sys2Proof.Machine

/-- RQ = OP above A (R60). -/
def Request.word (rq : Request) : RequestWord := rq.op ++ rq.a

/-- The request whose word is RQ (R60). -/
def Request.ofWord (w : RequestWord) : Request :=
  { op := w.extractLsb' 64 3, a := w.extractLsb' 0 64 }

/-- A request stands on the ports that has not been answered: the host must hold OP and A (R234, R237). -/
def State.unanswered (s : State) : Bool := s.request.isSome && s.response.isNone

/-- The ports with OP and A driven to rq, to which no response has been given; the response of an earlier request is
not held (R25). It is the effect of issuing, without the host's rule on when it may issue. -/
def State.drive (s : State) (rq : Request) : State :=
  { s with request := some rq, response := none }

/-- The host issues a request, any OP and any A (R237). While an earlier request is unanswered the host must hold OP
and A, and has NO move that changes them: none. -/
def State.issue (s : State) (rq : Request) : Option State :=
  if s.unanswered then none else some (s.drive rq)

/-- The request word on the ports, where the host makes a request. -/
def State.fetch (s : State) : Option RequestWord := s.request.map Request.word

/-- The block gives a response; nothing else changes (R24, R45). -/
def State.answered (s : State) (r : Response) : State := { s with response := some r }

/-- The end of every operation: one response, written once (R25). -/
def answer (r : Response) (s : State) : Host.Outcome State Fault Refusal := .next (s.answered r)

/-- `raise <Condition>` (R11, R201): the request ends with the condition's STATUS and no R. Nothing is saved and
nothing else changes (R200, R209). -/
def raise (c : Condition) (s : State) : Host.Outcome State Fault Refusal := answer (.raised c) s

/-- Reset of a running block (R28, R230): the parameters keep their build-time values, and no request has been made.
DESIGN CHOICE (log entry 18): a request still unanswered on the ports when reset comes is taken away with the rest and
gets no response. -/
def State.afterReset (s : State) : State := State.build s.params

end Sys2Proof.Machine
end

