-- ==== Sys2Proof/Machine/Decoders.lean ====
section
/-!
DEFINITION. The decoder family: the meanings of DEC16, DEC32 and DEC48 (R150, R160 to R162). A decoder accepts every
word (R155); the only condition it raises is the operand-width check's.
-/

namespace Sys2Proof.Machine

/-- DEC16 (R160). -/
def execDec16 (a : PortWord) (s : State) : Host.Outcome State Fault Refusal :=
  answer (guardOperand 16 a (.ok (toIeee .binary16 (word16Value s.params.dec16Signed a)))) s

/-- DEC32 (R161). -/
def execDec32 (a : PortWord) (s : State) : Host.Outcome State Fault Refusal :=
  answer (guardOperand 32 a (.ok (toIeee .binary32 (word32Value a)))) s

/-- DEC48 (R162). -/
def execDec48 (a : PortWord) (s : State) : Host.Outcome State Fault Refusal :=
  answer (guardOperand 48 a (.ok (toIeee .binary64 (word48Value s.params.dec48Signed a)))) s

end Sys2Proof.Machine
end

