-- ==== Sys2Proof/Machine/Encoders.lean ====
section
/-!
DEFINITION. The encoder family: the shared skeleton ENCODE_W of R100 and the meanings of ENC16, ENC32 and ENC48
(R120 to R122).
-/

namespace Sys2Proof.Machine

/-- The rounded mantissa m0 of a nonzero x (R104). -/
def roundedMantissa (w : Width) (t : Ties) (x : Scaled) : Int :=
  (x.scale (w.fracBits - x.ceilLog2)).round t

/-- The mantissa and exponent to be packed, after the boundary correction (R106). -/
def mantissaExponent (w : Width) (p : Params) (x : Scaled) : Int × Int :=
  let m0 := roundedMantissa w p.ties x
  if m0 = w.boundary p then (halve m0, x.ceilLog2 + 1) else (m0, x.ceilLog2)

/-- The word of a finite x with sign bit s: the all-zero word for a zero (R102), else mantissa, exponent and packing
(R100). -/
def encodeFinite (w : Width) (p : Params) (x : Scaled) (s : Bool) : PortWord :=
  if x.num = 0 then 0
  else packWord w (mantissaExponent w p x).1 (mantissaExponent w p x).2 s

/-- ENCODE_W of R100, after the operand-width check. -/
def encodeResponse (w : Width) (p : Params) (b : PortWord) : Response :=
  match ieeeValue w.fmt b with
  | .nan => .raised .nonFiniteInput
  | .inf _ => .raised .nonFiniteInput
  | .finite x => .ok (encodeFinite w p x (signBit w.fmt b))

/-- ENC16 (R120). -/
def execEnc16 (a : PortWord) (s : State) : Host.Outcome State Fault Refusal :=
  answer (guardOperand 16 a (encodeResponse .w16 s.params a)) s

/-- ENC32 (R121). -/
def execEnc32 (a : PortWord) (s : State) : Host.Outcome State Fault Refusal :=
  answer (guardOperand 32 a (encodeResponse .w32 s.params a)) s

/-- ENC48 (R122): no bit of A is required to be zero (R73). -/
def execEnc48 (a : PortWord) (s : State) : Host.Outcome State Fault Refusal :=
  answer (encodeResponse .w48 s.params a) s

end Sys2Proof.Machine
end

