-- ==== Sys2Proof/Machine/Dispatch.lean ====
section
/-!
DEFINITION. One arm per operation (R61).
-/

namespace Sys2Proof.Machine

def exec (i : Instr) (s : State) : Host.Outcome State Fault Refusal :=
  match i with
  | .enc16 a => Sys2Proof.Machine.execEnc16 a s
  | .enc32 a => Sys2Proof.Machine.execEnc32 a s
  | .enc48 a => Sys2Proof.Machine.execEnc48 a s
  | .dec16 a => Sys2Proof.Machine.execDec16 a s
  | .dec32 a => Sys2Proof.Machine.execDec32 a s
  | .dec48 a => Sys2Proof.Machine.execDec48 a s

end Sys2Proof.Machine
end

