-- ==== Sys2Proof/Machine/Step.lean ====
section
/-!
DEFINITION. One step: the request on the ports to its response, indivisibly (R45, R235).
-/

namespace Sys2Proof.Machine

/-- One step. No request: nothing happens (log entry 4). A reserved OP raises IllegalOperation (R203). Every other
request runs its operation. The host holds OP and A until the response (R234), so the request stays on the ports. -/
def step (s : State) : Host.Outcome State Fault Refusal :=
  match s.fetch with
  | none => .next s
  | some rq =>
    match decode rq with
    | .instr i => exec i s
    | .reservedOp _ => raise .illegalOperation s

/-- The ports driven to the request whose word is the opcode table's word w (log entry 5: requests come from outside).
Where no request is unanswered this is the host's move State.issue. DESIGN CHOICE (log entry 17): over an unanswered
request, where the host has no move (R237), it replaces what is on the ports. -/
def State.withFetchWord (s : State) (nbits w : Nat) : State :=
  s.drive (Request.ofWord (requestWordOfTable nbits w))

end Sys2Proof.Machine
end

