-- ==== Sys2Proof/Machine/Flags.lean ====
section
/-!
DEFINITION. STATUS, the block's only flag-like value (R25): its codes (R21) and what the host reads on the response
ports. The block has no condition codes.
-/

namespace Sys2Proof.Machine

/-- The STATUS code of each condition (R202). -/
def Condition.status : Condition → BitVec 2
  | .nonFiniteInput => 0b01#2
  | .illegalOperation => 0b10#2
  | .illegalOperand => 0b11#2

/-- STATUS of a response (R21). -/
def Response.status : Response → BitVec 2
  | .ok _ => 0b00#2
  | .raised c => c.status

/-- R of a response: a value exactly when STATUS = OK (R21, R201). -/
def Response.result : Response → Option PortWord
  | .ok r => some r
  | .raised _ => none

/-- STATUS as the host reads it; none before the first response (R28). -/
def State.status (s : State) : Option (BitVec 2) := s.response.map Response.status

/-- R as the host reads it; no value before the first response (R28) or after a condition (R201, R237). -/
def State.result (s : State) : Option PortWord := s.response.bind Response.result

end Sys2Proof.Machine
end

