-- ==== Sys2Proof/Machine/Platform.lean ====
section
/-!
DEFINITION. What stands around one block: a host that issues requests one after another (R22, R49), and a platform
that holds N_INSTANCES copies of the block (R216). The block itself keeps nothing of either.
-/

namespace Sys2Proof.Machine

/-- The response the block in state s gives when the host issues rq; none where the host has no such move (R237). -/
def State.responseTo (s : State) (rq : Request) : Option Response :=
  match s.issue rq with
  | none => none
  | some u =>
    match step u with
    | .next t => t.response
    | .fault _ => none
    | .refused _ => none

/-- The host issues a list of requests to one block, each after the response to the one before, and collects the
responses. It ends where the host has no move (R237). -/
def State.serve (s : State) : List Request → List (Option Response)
  | [] => []
  | rq :: rqs =>
    match s.issue rq with
    | none => []
    | some u =>
      match step u with
      | .next t => t.response :: t.serve rqs
      | .fault _ => []
      | .refused _ => []

/-- N_INSTANCES copies of the block (R216), at least one (R8). They have no identifiers of their own; a position in the
list is how the host reaches one. -/
structure Platform where
  instances : List State
  /-- R8: N_INSTANCES is a natural number ≥ 1. -/
  one_le : 1 ≤ instances.length
  deriving DecidableEq, Repr

/-- N_INSTANCES (R8). -/
def Platform.nInstances (pf : Platform) : Nat := pf.instances.length

/-- A platform of n ≥ 1 copies built with the parameters p (R8, R232). -/
def Platform.build (n : Nat) (hn : 1 ≤ n) (p : Params) : Platform :=
  { instances := List.replicate n (State.build p)
    one_le := by rw [List.length_replicate]; exact hn }

/-- The platform with its copy at position k replaced. -/
def Platform.setAt (pf : Platform) (k : Nat) (t : State) : Platform :=
  { instances := pf.instances.set k t
    one_le := by rw [List.length_set]; exact pf.one_le }

/-- The host issues a request to the copy at position k; none where there is no such copy, or where the host has no
such move (R237). -/
def Platform.issueAt (pf : Platform) (k : Nat) (rq : Request) : Option Platform :=
  match pf.instances[k]? with
  | none => none
  | some s => (s.issue rq).map (pf.setAt k)

/-- The copy at position k makes a step of its own; the others have no part in it (R216). -/
def Platform.stepAt (pf : Platform) (k : Nat) : Host.Outcome Platform Fault Refusal :=
  match pf.instances[k]? with
  | none => .next pf
  | some s =>
    match step s with
    | .next t => .next (pf.setAt k t)
    | .fault r => .fault r
    | .refused r => .refused r

end Sys2Proof.Machine
end

