-- ==== Sys2Proof/Machine/Assembler.lean ====
section
/-!
DEFINITION. The assembler form of a request (R76) and the host that runs a list of such lines on one block (R77). A line
is held by its fields; reading the characters of a line is outside the block (R6). Nothing here is state of the
block: `r<k>` is the host's data flow.
-/

namespace Sys2Proof.Machine

/-- The six mnemonics (R61, R76). -/
inductive Mnemonic where
  | enc16 | enc32 | enc48 | dec16 | dec32 | dec48
  deriving DecidableEq, Repr

/-- OP of a mnemonic (R61). -/
def Mnemonic.op : Mnemonic → OpCode
  | .enc16 => 0b000#3
  | .enc32 => 0b001#3
  | .enc48 => 0b010#3
  | .dec16 => 0b100#3
  | .dec32 => 0b101#3
  | .dec48 => 0b110#3

/-- The native format of an encoder's operand (R70); none for a decoder. -/
def Mnemonic.nativeFmt : Mnemonic → Option Fmt
  | .enc16 => some .binary16
  | .enc32 => some .binary32
  | .enc48 => some .binary64
  | .dec16 => none
  | .dec32 => none
  | .dec48 => none

/-- A decimal floating literal: ±digits × 10^exponent. -/
structure Decimal where
  negative : Bool
  digits : Nat
  exponent : Int
  deriving DecidableEq, Repr

/-- The literal's magnitude is numerator / denominator. -/
def Decimal.numerator (d : Decimal) : Nat := d.digits * 10 ^ d.exponent.toNat

/-- See Decimal.numerator. It is a power of ten, so not 0. -/
def Decimal.denominator (d : Decimal) : Nat := 10 ^ (-d.exponent).toNat

/-- floor(log2(n / d)) for n, d ≥ 1. -/
def floorLog2Ratio (n d : Nat) : Int :=
  let k := (n.log2 : Int) - d.log2
  if d * 2 ^ k.toNat ≤ n * 2 ^ (-k).toNat then k else k - 1

/-- n / d × 2^k to the nearest natural number, a tie to the even one. -/
def roundRatio (n d : Nat) (k : Int) : Nat :=
  if 0 ≤ k then divEven (n * 2 ^ k.toNat) d else divEven n (d * 2 ^ (-k).toNat)

/-- The format's pattern nearest to the literal under roundTiesToEven (R76), by the steps R154 gives for a rational. -/
def Decimal.nearest (f : Fmt) (d : Decimal) : PortWord :=
  if d.digits = 0 then 0
  else
    let e := max (floorLog2Ratio d.numerator d.denominator) (1 - (f.bias : Int))
    packSignificand f d.negative
      (carrySignificand f (roundRatio d.numerator d.denominator (f.fracBits - e)) e)

/-- The operand of a line (R76). -/
inductive AsmOperand where
  /-- `0x...`: the bit pattern placed in A, zero-extended. -/
  | hex (n : Nat)
  /-- A decimal floating literal; for an encoder only. -/
  | decimal (d : Decimal)
  /-- `r<k>`: the R of step k of the same program, steps counted from 1. -/
  | result (k : Nat)
  deriving DecidableEq, Repr

/-- One line of a program. -/
inductive AsmLine where
  /-- `<MNEMONIC> <operand>`. -/
  | line (m : Mnemonic) (operand : AsmOperand)
  /-- A request without a mnemonic (a reserved code), written by its fields. -/
  | fields (rq : Request)
  deriving DecidableEq, Repr

/-- R of step k, where step k was answered with one (R201: after a condition there is none). -/
def resultOf (answers : List Response) (k : Nat) : Option PortWord :=
  if k = 0 then none else answers[k - 1]?.bind Response.result

/-- The A an operand stands for, given the responses so far; none where it stands for none: a pattern of more than 64
bits, a decimal literal for a decoder, an `r<k>` without a value. -/
def AsmOperand.port (answers : List Response) (m : Mnemonic) : AsmOperand → Option PortWord
  | .hex n => if n < 2 ^ 64 then some (BitVec.ofNat 64 n) else none
  | .decimal d => m.nativeFmt.map d.nearest
  | .result k => resultOf answers k

/-- The request a line assembles to: OP from R61, A from R62 (R76). -/
def AsmLine.assemble (answers : List Response) : AsmLine → Option Request
  | .line m operand => (operand.port answers m).map (fun a => { op := m.op, a := a })
  | .fields rq => some rq

/-- The host runs a program on one block (R77): line after line, each R of a response at hand for later lines. It
ends, with the responses so far, at a line that stands for no request or that the host has no move for (R237). -/
def State.runLines (s : State) (answers : List Response) : List AsmLine → List Response
  | [] => answers
  | l :: ls =>
    match l.assemble answers with
    | none => answers
    | some rq =>
      match s.issue rq with
      | none => answers
      | some u =>
        match step u with
        | .next t => t.runLines (answers ++ t.response.toList) ls
        | .fault _ => answers
        | .refused _ => answers

end Sys2Proof.Machine
end

