-- ==== Sys2Proof/Safety.lean ====
section
/-!
DEFINITION. The terms the statements use. First the arithmetic rules written over the rationals exactly as spec/
writes them, independently of the integer arithmetic of Machine/Numeric.lean and of the format tables of
Machine/Operands.lean. Then what a right response is (R62, R63, R202 to R207) and the invariant every step keeps.
-/

namespace Sys2Proof.Safety

open Sys2Proof.Machine

/-! ### The rules over ℚ -/

/-- The rational a Scaled stands for. -/
def valueQ (x : Scaled) : ℚ := x.num * 2 ^ x.pow

/-- ieee_value(b, fmt) of R68 for a format of w exponent bits, p fraction bits and the given bias; none for NaN and
the infinities. -/
def nativeQ (w p bias : ℕ) (b : PortWord) : Option ℚ :=
  let sign : ℚ := if b.getLsbD (w + p) then -1 else 1
  let x := (b.extractLsb' p w).toNat
  let t := (b.extractLsb' 0 p).toNat
  if x = 2 ^ w - 1 then none
  else if x = 0 then some (sign * t * 2 ^ (1 - (bias : ℤ) - p))
  else some (sign * (2 ^ p + t) * 2 ^ ((x : ℤ) - bias - p))

/-- round_EVEN of R104: the nearest integer, a tie to the even one. -/
def roundEvenQ (y : ℚ) : ℤ :=
  if y - ⌊y⌋ < 1 / 2 then ⌊y⌋
  else if 1 / 2 < y - ⌊y⌋ then ⌊y⌋ + 1
  else if Even ⌊y⌋ then ⌊y⌋ else ⌊y⌋ + 1

/-- round_T of R104. -/
def roundQ (t : Ties) (y : ℚ) : ℤ :=
  match t with
  | .away => (if y < 0 then -1 else 1) * ⌊|y| + 1 / 2⌋
  | .even => roundEvenQ y

/-- e0 of R103, ceil_log2(|x|): the smallest integer e with |x| ≤ 2^e. -/
def exponentQ (x : ℚ) : ℤ := Int.clog 2 |x|

/-- y of R104: the signed input scaled by 2^(F − e0). -/
def scaledQ (frac : ℤ) (x : ℚ) : ℚ := x * 2 ^ (frac - exponentQ x)

/-- y is a tie (R104, R116): its magnitude has fractional part 1/2. -/
def IsTie (y : ℚ) : Prop := |y| - ⌊|y|⌋ = 1 / 2

/-- R106: m and e come from m0 and e0 by the boundary correction at B. Of an odd B nothing is said of m. -/
def Corrected (b m0 e0 m e : ℤ) : Prop :=
  (m0 ≠ b → m = m0 ∧ e = e0) ∧ (m0 = b → e = e0 + 1 ∧ (Even m0 → 2 * m = m0))

/-- e of R106, which does not need m. -/
def correctedExponent (b m0 e0 : ℤ) : ℤ := if m0 = b then e0 + 1 else e0

/-- to_ieee(v, fmt) of R154, as the pattern's unsigned value. -/
def toNativeQ (w p bias : ℕ) (v : ℚ) : ℤ :=
  if v = 0 then 0
  else
    let s : ℤ := if v < 0 then 1 else 0
    let a := |v|
    let e := max (Int.log 2 a) (1 - (bias : ℤ))
    let n := roundEvenQ (a / 2 ^ (e - p))
    let n' := if n = 2 ^ (p + 1) then 2 ^ p else n
    let e' := if n = 2 ^ (p + 1) then e + 1 else e
    if (bias : ℤ) < e' then s * 2 ^ (w + p) + (2 ^ w - 1) * 2 ^ p
    else if n' < 2 ^ p then s * 2 ^ (w + p) + n'
    else s * 2 ^ (w + p) + (e' + bias) * 2 ^ p + (n' - 2 ^ p)

/-- The parameter values R8 lists for P_ENC16_BOUNDARY: its default and its alternative. -/
def ListedBoundary (p : Params) : Prop := p.enc16Boundary = 32768 ∨ p.enc16Boundary = 512

/-! ### Right responses -/

/-- OP selects no operation (R61, R72). -/
def ReservedOp (op : OpCode) : Prop := op = 0b011#3 ∨ op = 0b111#3

/-- OP selects an encoder (R61). -/
def EncoderOp (op : OpCode) : Prop := op = 0b000#3 ∨ op = 0b001#3 ∨ op = 0b010#3

/-- The column n of R62 for an operation code; 64 for a reserved one, whose operand is not examined. -/
def operandWidth (op : OpCode) : ℕ :=
  if op = 0b000#3 ∨ op = 0b100#3 then 16
  else if op = 0b001#3 ∨ op = 0b101#3 then 32
  else if op = 0b110#3 then 48
  else 64

/-- How many low bits of R the result takes (R63). -/
def resultWidth (op : OpCode) : ℕ :=
  if op = 0b000#3 ∨ op = 0b100#3 then 16
  else if op = 0b001#3 ∨ op = 0b101#3 then 32
  else if op = 0b010#3 then 48
  else 64

/-- A required-zero bit of A is 1 (R62, R204). -/
def WideOperand (rq : Request) : Prop := rq.a >>> operandWidth rq.op ≠ 0

/-- The operand of an encoder is NaN or an infinity: its exponent field is all ones (R68, R205). -/
def NonFiniteOperand (rq : Request) : Prop :=
  (rq.op = 0b000#3 ∧ rq.a.extractLsb' 10 5 = 0x1F#5) ∨
  (rq.op = 0b001#3 ∧ rq.a.extractLsb' 23 8 = 0xFF#8) ∨
  (rq.op = 0b010#3 ∧ rq.a.extractLsb' 52 11 = 0x7FF#11)

/-- R202 with R207's priority: the response names the FIRST condition that applies to its request, and is OK exactly
when none applies; an OK result fills no bit above the width of R63. -/
def RightResponse (rq : Request) : Response → Prop
  | .raised .illegalOperation => ReservedOp rq.op
  | .raised .illegalOperand => ¬ReservedOp rq.op ∧ WideOperand rq
  | .raised .nonFiniteInput => ¬ReservedOp rq.op ∧ ¬WideOperand rq ∧ NonFiniteOperand rq
  | .ok r =>
    ¬ReservedOp rq.op ∧ ¬WideOperand rq ∧ ¬NonFiniteOperand rq ∧ r >>> resultWidth rq.op = 0

/-- The same block built with P_TIES = t; nothing else differs. -/
def withTies (t : Ties) (s : State) : State := { s with params := { s.params with ties := t } }

/-- Operation i answers r on the block built with P_TIES = AWAY and r' on the one built with EVEN, and changes nothing
else on either. -/
def AnswersUnderTies (i : Instr) (s : State) (r r' : Response) : Prop :=
  exec i (withTies .away s) = .next { withTies .away s with response := some r } ∧
  exec i (withTies .even s) = .next { withTies .even s with response := some r' }

/-- The invariant: a response on the ports belongs to the request on the ports (R209) and is right for it. -/
def Inv (s : State) : Prop :=
  ∀ r, s.response = some r → ∃ rq, s.request = some rq ∧ RightResponse rq r

end Sys2Proof.Safety
end

