-- ==== Sys2Proof/Certificates/Slice0/Obligations.lean ====
section
/-!
DEFINITION. The statements for the provers, each citing the rule of spec/ it formalises. A value of the parameters
is an argument of every statement (R237): it is the params field of the state. The block has one piece of state an
operation writes, the response (R25), so `{ s with response := some r }` is the frame of every operation: the
parameters and the request are as before, and there is no register, flag, memory or counter besides (R20 to R26).
-/

open Sys2Proof Sys2Proof.Machine Sys2Proof.Safety

/-! ### The machine -/

/-- A step runs the decoded request: OP names the operation (R22, R61), and step adds nothing around it. -/
def Obligations.StepRunsDecodedRequest : Prop :=
  ∀ (s : State) (rq : Request) (i : Instr),
    s.request = some rq → decode rq.word = .instr i → step s = exec i s

/-- THE MODEL'S CHOICE (log entry 4): where the host makes no request, a step changes nothing. -/
def Obligations.StepWithoutRequest : Prop :=
  ∀ s : State, s.request = none → step s = .next s

/-- R61's table read off words written out bit by bit: OP in bits 66:64, A below. -/
def Obligations.WordsOfEachOperation : Prop :=
  decode 0x00000000000004A33#67 = .instr (.enc16 0x4A33#64) ∧
  decode 0x10000000040A77CEE#67 = .instr (.enc32 0x40A77CEE#64) ∧
  decode 0x2BFF0000000000000#67 = .instr (.enc48 0xBFF0000000000000#64) ∧
  decode 0x40000000000006344#67 = .instr (.dec16 0x6344#64) ∧
  decode 0x500000000AC418903#67 = .instr (.dec32 0xAC418903#64) ∧
  decode 0x600009B781202AEEF#67 = .instr (.dec48 0x9B781202AEEF#64) ∧
  decode 0x30000000000000000#67 = .reservedOp 0b011#3 ∧
  decode 0x7FFFFFFFFFFFFFFFF#67 = .reservedOp 0b111#3

/-- Tier 3 (a). Decoding and encoding agree in both directions, with every operand at every value: the decoder reads
back the operation and the whole of A from each operation's word; a word it accepts is the word of what it reads; and
it rejects exactly the words whose OP is 0b011 or 0b111 (R60, R61, R72). -/
def Obligations.DecodeEncodeAgree : Prop :=
  (∀ i : Instr, decode (encode i) = .instr i) ∧
  (∀ (w : RequestWord) (i : Instr), decode w = .instr i → encode i = w) ∧
  (∀ w : RequestWord, ReservedOp (w.extractLsb' 64 3) ↔ ∃ op, decode w = .reservedOp op)

/-- R28 and R230: reset leaves the parameters at their build-time values. THE MODEL'S CHOICE (log entry 2): R and
STATUS, which R28 calls unspecified before the first response (U15: "any value"), have no value there. -/
def Obligations.ResetLeaves : Prop :=
  (∀ s : State, s.afterReset.params = s.params ∧ s.afterReset.result = none ∧ s.afterReset.status = none) ∧
  State.reset.result = none ∧ State.reset.status = none

/-- THE MODEL'S CHOICE (log entry 3): State.reset is built with R8's default parameters, and (log entry 4) the host
makes no request yet. -/
def Obligations.ResetParameters : Prop :=
  State.reset = { params := { enc16Boundary := 32768, dec16Signed := false, dec48Signed := false, ties := .away },
                  request := none, response := none }

/-- R21's table: the STATUS codes, and that R is defined only when STATUS = OK. -/
def Obligations.StatusCodes : Prop :=
  (∀ r, (Response.ok r).status = 0b00#2 ∧ (Response.ok r).result = some r) ∧
  (Response.raised .nonFiniteInput).status = 0b01#2 ∧
  (Response.raised .illegalOperation).status = 0b10#2 ∧
  (Response.raised .illegalOperand).status = 0b11#2 ∧
  (∀ r : Response, (∃ v, r.result = some v) ↔ r.status = 0b00#2)

/-- The frame of all six operations (R24, R45): exec answers a next state that differs in the response alone, and
the response is a function of the operation and the parameters. -/
def Obligations.ExecChangesOnlyTheResponse : Prop :=
  ∀ (i : Instr) (s : State), ∃ r : Response,
    ∀ t : State, t.params = s.params → exec i t = .next { t with response := some r }

/-- Tier 3 (b). From EVERY state that meets the invariant, a step ends in one that does: the response on the ports is
the request's, names the first condition that applies (R202, R207), is OK exactly when none does, and an OK result
has no bit above the width R63 gives it. -/
def Obligations.StepKeepsInvariant : Prop :=
  ∀ s t : State, Inv s → step s = .next t → Inv t

/-- The invariant holds at reset, where no response has been given (R28). -/
def Obligations.ResetMeetsInvariant : Prop := Inv State.reset ∧ ∀ s : State, Inv s.afterReset

/-- The host's move, issuing a request, keeps the invariant too, wherever the host has that move (R25, R237). -/
def Obligations.IssueMeetsInvariant : Prop :=
  ∀ (s u : State) (rq : Request), s.issue rq = some u → Inv u

/-- R237, R234: the host may issue any OP and any A, but must hold them until the response: it has no move exactly while
a request is unanswered. Issuing drives OP and A and changes nothing else of the block; no response is there until one
is given (R25). After every step the host may issue; and after reset, which takes an unanswered request away (THE MODEL'S
CHOICE, log entry 18). -/
def Obligations.HostMayIssue : Prop :=
  (∀ (s : State) (rq : Request),
    s.issue rq = none ↔ ∃ held, s.request = some held ∧ s.response = none) ∧
  (∀ (s u : State) (rq : Request), s.issue rq = some u →
    u = { params := s.params, request := some rq, response := none }) ∧
  (∀ (s t : State) (rq : Request), step s = .next t → ∃ u, t.issue rq = some u) ∧
  (∀ (s : State) (rq : Request), ∃ u, s.afterReset.issue rq = some u)

/-- R235, R200: every request receives its response in one step, whatever OP and A, and nothing else changes (R45,
R209); the response names the first condition that applies (R202, R207), else is OK with a result of the width of
R63. -/
def Obligations.EveryRequestAnswered : Prop :=
  ∀ (s : State) (rq : Request), s.request = some rq →
    ∃ r, step s = .next { s with response := some r } ∧ RightResponse rq r

/-- R27: the response is a function of OP, A and the parameters alone, so two blocks that agree on those, and on
nothing else, give the same one. -/
def Obligations.ResponseDependsOnRequestAndParameters : Prop :=
  ∀ (s t : State) (rq : Request),
    s.request = some rq → t.request = some rq → s.params = t.params →
    ∃ r, step s = .next { s with response := some r } ∧ step t = .next { t with response := some r }

/-- R24: no operation writes a parameter, and no step does. -/
def Obligations.ParametersNeverWritten : Prop :=
  ∀ s t : State, step s = .next t → t.params = s.params ∧ t.request = s.request

/-- R45: repeating a request yields the same response. -/
def Obligations.RepeatedRequest : Prop :=
  ∀ s t : State, step s = .next t → step t = .next t

/-- R49: requests are independent. Whatever a block answered before, a list of requests gets the responses a freshly
built block would give each one alone, and issuing them in another order permutes the responses alike. (While a request
is unanswered the host has no move: R237, HostMayIssue.) -/
def Obligations.RequestsIndependent : Prop :=
  ∀ s : State, s.unanswered = false →
    (∀ rqs : List Request, s.serve rqs = rqs.map (State.build s.params).responseTo) ∧
    (∀ rqs rqs' : List Request, rqs.Perm rqs' → (s.serve rqs).Perm (s.serve rqs'))

/-- R210, R231: after a response, with STATUS ≠ OK or not, and after reset, the next request gets the response it
would have got before. -/
def Obligations.NothingLeftBehind : Prop :=
  ∀ (s u t : State) (rq rq' : Request), s.issue rq = some u → step u = .next t →
    ∃ r, s.responseTo rq' = some r ∧ t.responseTo rq' = some r ∧ t.afterReset.responseTo rq' = some r

/-- R216: a step of one copy of the block leaves every other copy as it was, does to its own what a lone block's step
does, and commutes with a step of another copy. -/
def Obligations.InstancesIndependent : Prop :=
  ∀ (pf pf' : Platform) (k : ℕ), pf.stepAt k = .next pf' →
    (∀ j, j ≠ k → pf'.instances[j]? = pf.instances[j]?) ∧
    (∀ s, pf.instances[k]? = some s → ∃ t, step s = .next t ∧ pf'.instances[k]? = some t) ∧
    (∀ (j : ℕ) (qf : Platform), j ≠ k → pf.stepAt j = .next qf →
      ∃ last, pf'.stepAt j = .next last ∧ qf.stepAt k = .next last)

/-- R8, R216: N_INSTANCES is at least 1 and is fixed when the platform is built: building n copies makes n, each the
block as built; neither a step nor the host's issuing a request changes the number. Issuing to copy k is a move exactly
where copy k has no unanswered request (R237), and leaves every other copy as it was. -/
def Obligations.PlatformInstances : Prop :=
  (∀ pf : Platform, 1 ≤ pf.nInstances) ∧
  (∀ (n : ℕ) (hn : 1 ≤ n) (p : Params), (Platform.build n hn p).nInstances = n ∧
    ∀ k < n, (Platform.build n hn p).instances[k]? = some (State.build p)) ∧
  (∀ (pf pf' : Platform) (k : ℕ), pf.stepAt k = .next pf' → pf'.nInstances = pf.nInstances) ∧
  (∀ (pf : Platform) (k : ℕ) (rq : Request) (s : State), pf.instances[k]? = some s →
    (pf.issueAt k rq = none ↔ s.unanswered = true) ∧
    (∀ pf', pf.issueAt k rq = some pf' →
      pf'.nInstances = pf.nInstances ∧ s.issue rq = pf'.instances[k]? ∧
      ∀ j, j ≠ k → pf'.instances[j]? = pf.instances[j]?))

/-! ### Conditions -/

/-- R203, R72: OP 0b011 and OP 0b111 raise IllegalOperation; A is not examined. -/
def Obligations.ReservedOpRaises : Prop :=
  ∀ (s : State) (op : OpCode) (a : PortWord), op = 0b011#3 ∨ op = 0b111#3 →
    s.request = some { op := op, a := a } →
    step s = .next { s with response := some (.raised .illegalOperation) }

/-- R204: IllegalOperand is raised exactly by a request for ENC16, ENC32, DEC16, DEC32 or DEC48 with a required-zero
bit of A that is 1; never by ENC48. -/
def Obligations.IllegalOperandExactly : Prop :=
  ∀ (s : State) (op : OpCode) (a : PortWord), s.request = some { op := op, a := a } →
    (step s = .next { s with response := some (.raised .illegalOperand) } ↔
      ((op = 0b000#3 ∨ op = 0b100#3) ∧ a >>> 16 ≠ 0) ∨
      ((op = 0b001#3 ∨ op = 0b101#3) ∧ a >>> 32 ≠ 0) ∨
      (op = 0b110#3 ∧ a >>> 48 ≠ 0))

/-- R101, R205: NonFiniteInput is raised exactly by an encoder whose operand passes the operand-width check and is a
NaN or an infinity, that is, has an exponent field of all ones, whatever its sign and payload; never by a decoder. -/
def Obligations.NonFiniteInputExactly : Prop :=
  ∀ (s : State) (op : OpCode) (a : PortWord), s.request = some { op := op, a := a } →
    (step s = .next { s with response := some (.raised .nonFiniteInput) } ↔
      (op = 0b000#3 ∧ a >>> 16 = 0 ∧ a.extractLsb' 10 5 = 0x1F#5) ∨
      (op = 0b001#3 ∧ a >>> 32 = 0 ∧ a.extractLsb' 23 8 = 0xFF#8) ∨
      (op = 0b010#3 ∧ a.extractLsb' 52 11 = 0x7FF#11))

/-- R207: of the conditions that apply to a request, the first of IllegalOperation, IllegalOperand, NonFiniteInput is
reported. -/
def Obligations.ConditionPriority : Prop :=
  ∀ (s : State) (rq : Request), s.request = some rq →
    (ReservedOp rq.op → step s = .next { s with response := some (.raised .illegalOperation) }) ∧
    (¬ReservedOp rq.op → WideOperand rq →
      step s = .next { s with response := some (.raised .illegalOperand) }) ∧
    (¬ReservedOp rq.op → ¬WideOperand rq → NonFiniteOperand rq →
      step s = .next { s with response := some (.raised .nonFiniteInput) })

/-- R206, R155, R63: a request to which none of the three conditions applies is answered OK, so an exponent that does
not fit, a rounding, an overflow or an underflow raises nothing; the bits of R above the result are 0. -/
def Obligations.NothingElseRaised : Prop :=
  ∀ (s : State) (rq : Request), s.request = some rq →
    ¬ReservedOp rq.op → ¬WideOperand rq → ¬NonFiniteOperand rq →
    ∃ r, step s = .next { s with response := some (.ok r) } ∧ r >>> resultWidth rq.op = 0

/-! ### The six operations -/

/-- R120: ENC16 of every operand. B_16 is the parameter P_ENC16_BOUNDARY, any integer; of the halved mantissa at an
odd one nothing is claimed. -/
def Obligations.Enc16Operation : Prop :=
  ∀ (a : PortWord) (s : State),
    (a >>> 16 ≠ 0 → exec (.enc16 a) s = .next { s with response := some (.raised .illegalOperand) }) ∧
    (a >>> 16 = 0 → nativeQ 5 10 15 a = none →
      exec (.enc16 a) s = .next { s with response := some (.raised .nonFiniteInput) }) ∧
    (a >>> 16 = 0 → nativeQ 5 10 15 a = some 0 →
      exec (.enc16 a) s = .next { s with response := some (.ok 0) }) ∧
    (∀ x, a >>> 16 = 0 → nativeQ 5 10 15 a = some x → x ≠ 0 →
      ∃ m e : ℤ,
        Corrected s.params.enc16Boundary (roundQ s.params.ties (scaledQ 9 x)) (exponentQ x) m e ∧
        exec (.enc16 a) s =
          .next { s with response := some (.ok ((BitVec.ofInt 10 m ++ BitVec.ofInt 6 e).setWidth 64)) })

/-- R121: ENC32 of every operand. -/
def Obligations.Enc32Operation : Prop :=
  ∀ (a : PortWord) (s : State),
    (a >>> 32 ≠ 0 → exec (.enc32 a) s = .next { s with response := some (.raised .illegalOperand) }) ∧
    (a >>> 32 = 0 → nativeQ 8 23 127 a = none →
      exec (.enc32 a) s = .next { s with response := some (.raised .nonFiniteInput) }) ∧
    (a >>> 32 = 0 → nativeQ 8 23 127 a = some 0 →
      exec (.enc32 a) s = .next { s with response := some (.ok 0) }) ∧
    (∀ x, a >>> 32 = 0 → nativeQ 8 23 127 a = some x → x ≠ 0 →
      ∃ m e : ℤ,
        Corrected (2 ^ 23) (roundQ s.params.ties (scaledQ 23 x)) (exponentQ x) m e ∧
        exec (.enc32 a) s =
          .next { s with response := some (.ok
            ((BitVec.ofInt 24 m ++ BitVec.ofInt 8 e ||| BitVec.ofBool (a.getLsbD 31) ++ 0#31).setWidth 64)) })

/-- R122: ENC48 of every operand. -/
def Obligations.Enc48Operation : Prop :=
  ∀ (a : PortWord) (s : State),
    (nativeQ 11 52 1023 a = none →
      exec (.enc48 a) s = .next { s with response := some (.raised .nonFiniteInput) }) ∧
    (nativeQ 11 52 1023 a = some 0 →
      exec (.enc48 a) s = .next { s with response := some (.ok 0) }) ∧
    (∀ x, nativeQ 11 52 1023 a = some x → x ≠ 0 →
      ∃ m e : ℤ,
        Corrected (2 ^ 39) (roundQ s.params.ties (scaledQ 39 x)) (exponentQ x) m e ∧
        exec (.enc48 a) s =
          .next { s with response := some (.ok
            (((BitVec.ofInt 40 m).extractLsb' 16 24 ++ BitVec.ofInt 8 e ++ (BitVec.ofInt 40 m).extractLsb' 0 16
              ||| BitVec.ofBool (a.getLsbD 63) ++ 0#47).setWidth 64)) })

/-- R160: DEC16 of every word, under either value of P_DEC16_SIGNED. -/
def Obligations.Dec16Operation : Prop :=
  ∀ (a : PortWord) (s : State),
    (a >>> 16 ≠ 0 → exec (.dec16 a) s = .next { s with response := some (.raised .illegalOperand) }) ∧
    (a >>> 16 = 0 → exec (.dec16 a) s = .next { s with response := some (.ok (BitVec.ofInt 64
      (toNativeQ 5 10 15
        ((if s.params.dec16Signed then ((a.extractLsb' 6 10).toInt : ℚ) else ((a.extractLsb' 6 10).toNat : ℚ)) *
          2 ^ ((a.extractLsb' 0 6).toInt - 9))))) })

/-- R161: DEC32 of every word. -/
def Obligations.Dec32Operation : Prop :=
  ∀ (a : PortWord) (s : State),
    (a >>> 32 ≠ 0 → exec (.dec32 a) s = .next { s with response := some (.raised .illegalOperand) }) ∧
    (a >>> 32 = 0 → exec (.dec32 a) s = .next { s with response := some (.ok (BitVec.ofInt 64
      (toNativeQ 8 23 127 ((a.extractLsb' 8 24).toInt * 2 ^ ((a.extractLsb' 0 8).toInt - 23))))) })

/-- R162: DEC48 of every word, under either value of P_DEC48_SIGNED. -/
def Obligations.Dec48Operation : Prop :=
  ∀ (a : PortWord) (s : State),
    (a >>> 48 ≠ 0 → exec (.dec48 a) s = .next { s with response := some (.raised .illegalOperand) }) ∧
    (a >>> 48 = 0 → exec (.dec48 a) s = .next { s with response := some (.ok (BitVec.ofInt 64
      (toNativeQ 11 52 1023
        (if s.params.dec48Signed then
          ((a.extractLsb' 24 24 ++ a.extractLsb' 0 16).toInt : ℚ) * 2 ^ ((a.extractLsb' 16 8).toInt - 39)
        else
          ((a.extractLsb' 24 24).toNat : ℚ) * 2 ^ ((a.extractLsb' 16 8).toInt - 23) +
            ((a.extractLsb' 0 16).toNat : ℚ) * 2 ^ ((a.extractLsb' 16 8).toInt - 39))))) })

/-- R102: both zeros encode to the all-zero word at every width, and the sign bit of −0 reaches no word. -/
def Obligations.ZeroEncodesToZero : Prop :=
  ∀ s : State,
    (∀ a : PortWord, a = 0x0000#64 ∨ a = 0x8000#64 →
      exec (.enc16 a) s = .next { s with response := some (.ok 0) }) ∧
    (∀ a : PortWord, a = 0x00000000#64 ∨ a = 0x80000000#64 →
      exec (.enc32 a) s = .next { s with response := some (.ok 0) }) ∧
    (∀ a : PortWord, a = 0x0000000000000000#64 ∨ a = 0x8000000000000000#64 →
      exec (.enc48 a) s = .next { s with response := some (.ok 0) })

/-! ### What the rules derive about the encoders -/

/-- R103: the encoders' exponent is the integer e0 with 2^(e0−1) < |x| ≤ 2^e0, and its range over each native
format. -/
def Obligations.ExponentNormalisation : Prop :=
  (∀ x : Scaled, x.num ≠ 0 →
    (2 : ℚ) ^ (x.ceilLog2 - 1) < |valueQ x| ∧ |valueQ x| ≤ 2 ^ x.ceilLog2) ∧
  (∀ (b : PortWord) (x : Scaled), x.num ≠ 0 →
    (ieeeValue .binary16 b = .finite x → -24 ≤ x.ceilLog2 ∧ x.ceilLog2 ≤ 16) ∧
    (ieeeValue .binary32 b = .finite x → -149 ≤ x.ceilLog2 ∧ x.ceilLog2 ≤ 128) ∧
    (ieeeValue .binary64 b = .finite x → -1074 ≤ x.ceilLog2 ∧ x.ceilLog2 ≤ 1024))

/-- R104: what the encoders round to, under either tie rule: round_T of the exact scaled value, which is odd. -/
def Obligations.RoundingRule : Prop :=
  ∀ (w : Width) (t : Ties) (x : Scaled), x.num ≠ 0 →
    roundedMantissa w t x = roundQ t (scaledQ w.fracBits (valueQ x)) ∧
    roundedMantissa w t { x with num := -x.num } = -roundedMantissa w t x

/-- R105: the range of y and of the rounded mantissa, at every width and under either tie rule. -/
def Obligations.RoundedMantissaRange : Prop :=
  ∀ (w : Width) (t : Ties) (x : Scaled), x.num ≠ 0 →
    ((2 : ℚ) ^ ((w.fracBits : ℤ) - 1) < |scaledQ w.fracBits (valueQ x)| ∧
      |scaledQ w.fracBits (valueQ x)| ≤ 2 ^ (w.fracBits : ℤ)) ∧
    2 ^ (w.fracBits - 1) ≤ |roundedMantissa w t x| ∧ |roundedMantissa w t x| ≤ 2 ^ w.fracBits ∧
    (|roundedMantissa w t x| = 2 ^ w.fracBits ↔
      (2 : ℚ) ^ w.fracBits - 1 / 2 ≤ |scaledQ w.fracBits (valueQ x)|)

/-- R111: the extra sign bit never changes a word. A set sign bit means a negative input or −0: there, the word packed
with the sign bit is the word packed without it; and a negative input's word has its top bit set by the mantissa. -/
def Obligations.ExtraSignBitRedundant : Prop :=
  ∀ (p : Params) (x : Scaled),
    (∀ s : Bool, (s = true → x.num ≤ 0) →
      encodeFinite .w32 p x s = encodeFinite .w32 p x false ∧
      encodeFinite .w48 p x s = encodeFinite .w48 p x false) ∧
    (x.num < 0 →
      (encodeFinite .w32 p x false).getLsbD 31 = true ∧ (encodeFinite .w48 p x false).getLsbD 47 = true)

/-- R112 (with the range of R107, see log entry 8): where the exponent field holds the exponent. ENC16 never
truncates it under a boundary R8 lists; at 32 and 48 bits the field, read back, is the exponent exactly when that lies
in [−128, 127]. -/
def Obligations.ExponentTruncation : Prop :=
  ∀ (a : PortWord) (s : State) (x : ℚ), x ≠ 0 →
    (a >>> 16 = 0 → nativeQ 5 10 15 a = some x → ListedBoundary s.params →
      ∃ r, exec (.enc16 a) s = .next { s with response := some (.ok r) } ∧
        (r.extractLsb' 0 6).toInt =
          correctedExponent s.params.enc16Boundary (roundQ s.params.ties (scaledQ 9 x)) (exponentQ x)) ∧
    (a >>> 32 = 0 → nativeQ 8 23 127 a = some x →
      ∃ r e, exec (.enc32 a) s = .next { s with response := some (.ok r) } ∧
        e = correctedExponent (2 ^ 23) (roundQ s.params.ties (scaledQ 23 x)) (exponentQ x) ∧
        -149 ≤ e ∧ e ≤ 129 ∧ ((r.extractLsb' 0 8).toInt = e ↔ -128 ≤ e ∧ e ≤ 127)) ∧
    (nativeQ 11 52 1023 a = some x →
      ∃ r e, exec (.enc48 a) s = .next { s with response := some (.ok r) } ∧
        e = correctedExponent (2 ^ 39) (roundQ s.params.ties (scaledQ 39 x)) (exponentQ x) ∧
        -1074 ≤ e ∧ e ≤ 1025 ∧ ((r.extractLsb' 16 8).toInt = e ↔ -128 ≤ e ∧ e ≤ 127))

/-- R113: under the literal boundary, every x with m0 = +512 gets the mantissa pattern of m0 = −512, and a power of
two and its negation get the same word. -/
def Obligations.Enc16Aliasing : Prop :=
  ∀ (a : PortWord) (s : State), a >>> 16 = 0 → s.params.enc16Boundary = 32768 →
    (∀ x, nativeQ 5 10 15 a = some x → roundQ s.params.ties (scaledQ 9 x) = 512 →
      ∃ r, exec (.enc16 a) s = .next { s with response := some (.ok r) } ∧
        r.extractLsb' 6 10 = 0b1000000000#10 ∧ r.getLsbD 15 = true) ∧
    (∀ k : ℤ, -24 ≤ k → k ≤ 15 → nativeQ 5 10 15 a = some (2 ^ k) →
      ∃ r, exec (.enc16 a) s = .next { s with response := some (.ok r) } ∧
        exec (.enc16 (a ^^^ 0x8000#64)) s = .next { s with response := some (.ok r) })

/-- R114: negating an input (flipping its sign bit) negates the mantissa field and keeps the exponent field, where
|m0| < 2^F; where |m0| = 2^F the 32- and 48-bit words differ in the exponent field. At 16 bits under a boundary R8
lists. -/
def Obligations.SignSymmetry : Prop :=
  ∀ (a : PortWord) (s : State) (x : ℚ), x ≠ 0 →
    (a >>> 16 = 0 → nativeQ 5 10 15 a = some x → ListedBoundary s.params →
      |roundQ s.params.ties (scaledQ 9 x)| < 2 ^ 9 →
      ∃ r r', exec (.enc16 a) s = .next { s with response := some (.ok r) } ∧
        exec (.enc16 (a ^^^ 0x8000#64)) s = .next { s with response := some (.ok r') } ∧
        r'.extractLsb' 0 6 = r.extractLsb' 0 6 ∧ r'.extractLsb' 6 10 = -r.extractLsb' 6 10) ∧
    (a >>> 32 = 0 → nativeQ 8 23 127 a = some x →
      ∃ r r', exec (.enc32 a) s = .next { s with response := some (.ok r) } ∧
        exec (.enc32 (a ^^^ 0x80000000#64)) s = .next { s with response := some (.ok r') } ∧
        (|roundQ s.params.ties (scaledQ 23 x)| < 2 ^ 23 →
          r'.extractLsb' 0 8 = r.extractLsb' 0 8 ∧ r'.extractLsb' 8 24 = -r.extractLsb' 8 24) ∧
        (|roundQ s.params.ties (scaledQ 23 x)| = 2 ^ 23 → r'.extractLsb' 0 8 ≠ r.extractLsb' 0 8)) ∧
    (nativeQ 11 52 1023 a = some x →
      ∃ r r', exec (.enc48 a) s = .next { s with response := some (.ok r) } ∧
        exec (.enc48 (a ^^^ 0x8000000000000000#64)) s = .next { s with response := some (.ok r') } ∧
        (|roundQ s.params.ties (scaledQ 39 x)| < 2 ^ 39 →
          r'.extractLsb' 16 8 = r.extractLsb' 16 8 ∧
          r'.extractLsb' 24 24 ++ r'.extractLsb' 0 16 = -(r.extractLsb' 24 24 ++ r.extractLsb' 0 16)) ∧
        (|roundQ s.params.ties (scaledQ 39 x)| = 2 ^ 39 → r'.extractLsb' 16 8 ≠ r.extractLsb' 16 8))

/-- R115: where the exponent is not truncated, the word, its fields read as two's complement, stands for a value
within half a unit in the last place of the input. At 16 bits this is every input under P_ENC16_BOUNDARY = 512, every
input but those with m0 = +512 under the default (they alias: Enc16Aliasing), and under any other boundary every input
but those and one whose m0 is an odd boundary (its half is a free value: log entry 6). -/
def Obligations.EncodedWordAccuracy : Prop :=
  ∀ (a : PortWord) (s : State) (x : ℚ), x ≠ 0 →
    (a >>> 16 = 0 → nativeQ 5 10 15 a = some x →
      (roundQ s.params.ties (scaledQ 9 x) = 512 → s.params.enc16Boundary = 512) →
      (roundQ s.params.ties (scaledQ 9 x) = s.params.enc16Boundary → Even s.params.enc16Boundary) →
      ∃ r, exec (.enc16 a) s = .next { s with response := some (.ok r) } ∧
        |(r.extractLsb' 6 10).toInt * (2 : ℚ) ^ ((r.extractLsb' 0 6).toInt - 9) - x| ≤ 2 ^ (exponentQ x - 10)) ∧
    (a >>> 32 = 0 → nativeQ 8 23 127 a = some x →
      -128 ≤ correctedExponent (2 ^ 23) (roundQ s.params.ties (scaledQ 23 x)) (exponentQ x) →
      correctedExponent (2 ^ 23) (roundQ s.params.ties (scaledQ 23 x)) (exponentQ x) ≤ 127 →
      ∃ r, exec (.enc32 a) s = .next { s with response := some (.ok r) } ∧
        |(r.extractLsb' 8 24).toInt * (2 : ℚ) ^ ((r.extractLsb' 0 8).toInt - 23) - x| ≤ 2 ^ (exponentQ x - 24)) ∧
    (nativeQ 11 52 1023 a = some x →
      -128 ≤ correctedExponent (2 ^ 39) (roundQ s.params.ties (scaledQ 39 x)) (exponentQ x) →
      correctedExponent (2 ^ 39) (roundQ s.params.ties (scaledQ 39 x)) (exponentQ x) ≤ 127 →
      ∃ r, exec (.enc48 a) s = .next { s with response := some (.ok r) } ∧
        |(r.extractLsb' 24 24 ++ r.extractLsb' 0 16).toInt * (2 : ℚ) ^ ((r.extractLsb' 16 8).toInt - 39) - x|
          ≤ 2 ^ (exponentQ x - 40))

/-- R116, the normal inputs that are not powers of two: which are ties, and for which the two settings of P_TIES give
different words, namely the ties whose ⌊|y|⌋ is even (at the others both settings round up). -/
def Obligations.TiesOfNormalInputs : Prop :=
  ∀ (a : PortWord) (s : State) (x : ℚ),
    (a >>> 16 = 0 → nativeQ 5 10 15 a = some x → a.extractLsb' 10 5 ≠ 0 → a.extractLsb' 0 10 ≠ 0 →
      (IsTie (scaledQ 9 x) ↔ a.extractLsb' 0 2 = 0b10#2) ∧
      ∃ r r', AnswersUnderTies (.enc16 a) s (.ok r) (.ok r') ∧ (r ≠ r' ↔ a.extractLsb' 0 3 = 0b010#3)) ∧
    (a >>> 32 = 0 → nativeQ 8 23 127 a = some x → a.extractLsb' 23 8 ≠ 0 → a.extractLsb' 0 23 ≠ 0 →
      (IsTie (scaledQ 23 x) ↔ a.extractLsb' 0 1 = 1#1) ∧
      ∃ r r', AnswersUnderTies (.enc32 a) s (.ok r) (.ok r') ∧ (r ≠ r' ↔ a.extractLsb' 0 2 = 0b01#2)) ∧
    (nativeQ 11 52 1023 a = some x → a.extractLsb' 52 11 ≠ 0 → a.extractLsb' 0 52 ≠ 0 →
      (IsTie (scaledQ 39 x) ↔ a.extractLsb' 0 14 = 0x2000#14) ∧
      ∃ r r', AnswersUnderTies (.enc48 a) s (.ok r) (.ok r') ∧ (r ≠ r' ↔ a.extractLsb' 0 15 = 0x2000#15))

/-- R116, the other inputs. A power of two scales to 2^F exactly, and both settings of P_TIES give one word. A
subnormal with fraction field T: at 16 bits a tie when T is odd and above 512; at 32 bits never; at 48 bits when
T × 2^(39 − ceil_log2(T)) is one. The settings give different words at the ties whose ⌊|y|⌋ is even. -/
def Obligations.TiesOfPowersAndSubnormals : Prop :=
  ∀ (a : PortWord) (s : State) (x : ℚ),
    (a >>> 16 = 0 → nativeQ 5 10 15 a = some x → a.extractLsb' 10 5 ≠ 0 → a.extractLsb' 0 10 = 0 →
      |scaledQ 9 x| = 2 ^ 9 ∧ ∃ r, AnswersUnderTies (.enc16 a) s (.ok r) (.ok r)) ∧
    (a >>> 32 = 0 → nativeQ 8 23 127 a = some x → a.extractLsb' 23 8 ≠ 0 → a.extractLsb' 0 23 = 0 →
      |scaledQ 23 x| = 2 ^ 23 ∧ ∃ r, AnswersUnderTies (.enc32 a) s (.ok r) (.ok r)) ∧
    (nativeQ 11 52 1023 a = some x → a.extractLsb' 52 11 ≠ 0 → a.extractLsb' 0 52 = 0 →
      |scaledQ 39 x| = 2 ^ 39 ∧ ∃ r, AnswersUnderTies (.enc48 a) s (.ok r) (.ok r)) ∧
    (a >>> 16 = 0 → nativeQ 5 10 15 a = some x → a.extractLsb' 10 5 = 0 → a.extractLsb' 0 10 ≠ 0 →
      (IsTie (scaledQ 9 x) ↔ Odd (a.extractLsb' 0 10).toNat ∧ 512 < (a.extractLsb' 0 10).toNat) ∧
      ∃ r r', AnswersUnderTies (.enc16 a) s (.ok r) (.ok r') ∧
        (r ≠ r' ↔ a.extractLsb' 0 2 = 0b01#2 ∧ 512 < (a.extractLsb' 0 10).toNat)) ∧
    (a >>> 32 = 0 → nativeQ 8 23 127 a = some x → a.extractLsb' 23 8 = 0 → a.extractLsb' 0 23 ≠ 0 →
      ¬IsTie (scaledQ 23 x) ∧ ∃ r, AnswersUnderTies (.enc32 a) s (.ok r) (.ok r)) ∧
    (nativeQ 11 52 1023 a = some x → a.extractLsb' 52 11 = 0 → a.extractLsb' 0 52 ≠ 0 →
      let y : ℚ := (a.extractLsb' 0 52).toNat * 2 ^ (39 - (Nat.clog 2 (a.extractLsb' 0 52).toNat : ℤ))
      |scaledQ 39 x| = y ∧
      ∃ r r', AnswersUnderTies (.enc48 a) s (.ok r) (.ok r') ∧ (r ≠ r' ↔ IsTie y ∧ Even ⌊y⌋))

/-- P_TIES matters only at a tie (R104, R116), and there exactly where ⌊|y|⌋ is even: on two blocks that differ in
P_TIES alone an encoder gives different words exactly then, and every other response (a decoder's, a condition) is the
same. -/
def Obligations.TieRuleOnlyAtTies : Prop :=
  ∀ (a : PortWord) (s : State),
    (∀ x, a >>> 16 = 0 → nativeQ 5 10 15 a = some x →
      ∃ r r', AnswersUnderTies (.enc16 a) s (.ok r) (.ok r') ∧
        (r ≠ r' ↔ IsTie (scaledQ 9 x) ∧ Even ⌊|scaledQ 9 x|⌋)) ∧
    (∀ x, a >>> 32 = 0 → nativeQ 8 23 127 a = some x →
      ∃ r r', AnswersUnderTies (.enc32 a) s (.ok r) (.ok r') ∧
        (r ≠ r' ↔ IsTie (scaledQ 23 x) ∧ Even ⌊|scaledQ 23 x|⌋)) ∧
    (∀ x, nativeQ 11 52 1023 a = some x →
      ∃ r r', AnswersUnderTies (.enc48 a) s (.ok r) (.ok r') ∧
        (r ≠ r' ↔ IsTie (scaledQ 39 x) ∧ Even ⌊|scaledQ 39 x|⌋)) ∧
    (∀ i : Instr, ∃ r r', AnswersUnderTies i s r r' ∧
      (r ≠ r' → EncoderOp (opcodeOf i) ∧ ∃ w w', r = .ok w ∧ r' = .ok w'))

/-! ### What the rules derive about the decoders -/

/-- R156 for DEC48: never rounds and always returns a finite value, under either value of P_DEC48_SIGNED. -/
def Obligations.Dec48Exact : Prop :=
  ∀ (a : PortWord) (s : State), a >>> 48 = 0 →
    ∃ r, exec (.dec48 a) s = .next { s with response := some (.ok r) } ∧
      nativeQ 11 52 1023 r = some
        (if s.params.dec48Signed then
          ((a.extractLsb' 24 24 ++ a.extractLsb' 0 16).toInt : ℚ) * 2 ^ ((a.extractLsb' 16 8).toInt - 39)
        else
          ((a.extractLsb' 24 24).toNat : ℚ) * 2 ^ ((a.extractLsb' 16 8).toInt - 23) +
            ((a.extractLsb' 0 16).toNat : ℚ) * 2 ^ ((a.extractLsb' 16 8).toInt - 39))

/-- R156 for DEC32: always returns a finite value, and the exact one unless e is −128 or −127. -/
def Obligations.Dec32Exact : Prop :=
  ∀ (a : PortWord) (s : State), a >>> 32 = 0 →
    ∃ r x, exec (.dec32 a) s = .next { s with response := some (.ok r) } ∧
      nativeQ 8 23 127 r = some x ∧
      ((a.extractLsb' 0 8).toInt ≠ -128 → (a.extractLsb' 0 8).toInt ≠ -127 →
        x = (a.extractLsb' 8 24).toInt * 2 ^ ((a.extractLsb' 0 8).toInt - 23))

/-- R156 for DEC16: with v its exact value, R is +Inf exactly when v ≥ 65520, −Inf exactly when v ≤ −65520, and v
itself when it lies between and e ≥ −15. -/
def Obligations.Dec16Range : Prop :=
  ∀ (a : PortWord) (s : State), a >>> 16 = 0 →
    let v : ℚ :=
      (if s.params.dec16Signed then ((a.extractLsb' 6 10).toInt : ℚ) else ((a.extractLsb' 6 10).toNat : ℚ)) *
        2 ^ ((a.extractLsb' 0 6).toInt - 9)
    ∃ r, exec (.dec16 a) s = .next { s with response := some (.ok r) } ∧
      (r = 0x7C00#64 ↔ 65520 ≤ v) ∧ (r = 0xFC00#64 ↔ v ≤ -65520) ∧
      (|v| < 65520 → -15 ≤ (a.extractLsb' 0 6).toInt → nativeQ 5 10 15 r = some v)

/-- R157: a word of mantissa value 0 decodes to +0 whatever its exponent; under the defaults DEC16 and DEC48 never
return a set sign bit; DEC32 returns −0 only for a negative value; DEC48 never returns −0; no decoder returns a NaN. -/
def Obligations.DecoderZerosAndSigns : Prop :=
  ∀ (a : PortWord) (s : State),
    (a >>> 16 = 0 →
      ∃ r, exec (.dec16 a) s = .next { s with response := some (.ok r) } ∧
        (a.extractLsb' 6 10 = 0 → r = 0) ∧
        (s.params.dec16Signed = false → r.getLsbD 15 = false) ∧
        (r.extractLsb' 10 5 = 0x1F#5 → r.extractLsb' 0 10 = 0)) ∧
    (a >>> 32 = 0 →
      ∃ r, exec (.dec32 a) s = .next { s with response := some (.ok r) } ∧
        (a.extractLsb' 8 24 = 0 → r = 0) ∧
        (r = 0x80000000#64 → (a.extractLsb' 8 24).toInt < 0) ∧
        r.extractLsb' 23 8 ≠ 0xFF#8) ∧
    (a >>> 48 = 0 →
      ∃ r, exec (.dec48 a) s = .next { s with response := some (.ok r) } ∧
        (a.extractLsb' 24 24 = 0 → a.extractLsb' 0 16 = 0 → r = 0) ∧
        (s.params.dec48Signed = false → r.getLsbD 63 = false) ∧
        r ≠ 0x8000000000000000#64 ∧
        r.extractLsb' 52 11 ≠ 0x7FF#11)

/-! ### Round trips (R163): two requests of the host, from any state where the host may issue (R237) -/

/-- R163, 32 bits: where the encode's exponent is not truncated, decoding the encoded word gives m × 2^(e−23), within
2^(e0−24) of the input, and the input itself exactly when y is an integer. -/
def Obligations.RoundTrip32 : Prop :=
  ∀ (s : State) (a : PortWord) (x : ℚ), s.unanswered = false → a >>> 32 = 0 → nativeQ 8 23 127 a = some x →
    -128 ≤ correctedExponent (2 ^ 23) (roundQ s.params.ties (scaledQ 23 x)) (exponentQ x) →
    correctedExponent (2 ^ 23) (roundQ s.params.ties (scaledQ 23 x)) (exponentQ x) ≤ 127 →
    ∃ w r x', s.responseTo { op := 0b001#3, a := a } = some (.ok w) ∧
      s.responseTo { op := 0b101#3, a := w } = some (.ok r) ∧
      nativeQ 8 23 127 r = some x' ∧
      (∃ m e, Corrected (2 ^ 23) (roundQ s.params.ties (scaledQ 23 x)) (exponentQ x) m e ∧
        x' = m * 2 ^ (e - 23)) ∧
      |x' - x| ≤ 2 ^ (exponentQ x - 24) ∧ (x' = x ↔ ∃ n : ℤ, scaledQ 23 x = n)

/-- R163, 48 bits, where the encode's exponent is not truncated: under P_DEC48_SIGNED either sign comes back within
2^(e0−40); by default a nonnegative input does, and a negative one comes back as (2^40 + m) × 2^(e−39), which is
positive. -/
def Obligations.RoundTrip48 : Prop :=
  ∀ (s : State) (a : PortWord) (x : ℚ), s.unanswered = false → nativeQ 11 52 1023 a = some x →
    -128 ≤ correctedExponent (2 ^ 39) (roundQ s.params.ties (scaledQ 39 x)) (exponentQ x) →
    correctedExponent (2 ^ 39) (roundQ s.params.ties (scaledQ 39 x)) (exponentQ x) ≤ 127 →
    ∃ (w r : PortWord) (x' : ℚ) (m e : ℤ), s.responseTo { op := 0b010#3, a := a } = some (.ok w) ∧
      s.responseTo { op := 0b110#3, a := w } = some (.ok r) ∧
      nativeQ 11 52 1023 r = some x' ∧
      Corrected (2 ^ 39) (roundQ s.params.ties (scaledQ 39 x)) (exponentQ x) m e ∧
      (s.params.dec48Signed = true ∨ 0 ≤ x → x' = m * 2 ^ (e - 39) ∧ |x' - x| ≤ 2 ^ (exponentQ x - 40)) ∧
      (s.params.dec48Signed = false → x < 0 → x' = (2 ^ 40 + m) * 2 ^ (e - 39) ∧ 0 < x')

/-- R163, 16 bits, default parameters (P_TIES either): a positive input below 65472 comes back as m0 × 2^(e0−9),
within 2^(e0−10); one in [65472, 65504] as +Inf; a negative one with the sign bit clear. -/
def Obligations.RoundTrip16Default : Prop :=
  ∀ (s : State) (a : PortWord) (x : ℚ), s.unanswered = false →
    s.params.enc16Boundary = 32768 → s.params.dec16Signed = false →
    a >>> 16 = 0 → nativeQ 5 10 15 a = some x →
    ∃ w r, s.responseTo { op := 0b000#3, a := a } = some (.ok w) ∧
      s.responseTo { op := 0b100#3, a := w } = some (.ok r) ∧
      (0 < x → x < 65472 → ∃ x', nativeQ 5 10 15 r = some x' ∧
        x' = roundQ s.params.ties (scaledQ 9 x) * 2 ^ (exponentQ x - 9) ∧ |x' - x| ≤ 2 ^ (exponentQ x - 10)) ∧
      (65472 ≤ x → r = 0x7C00#64) ∧
      (x < 0 → r.getLsbD 15 = false)

/-- R163, 16 bits, both alternatives (P_ENC16_BOUNDARY = 512, P_DEC16_SIGNED): an input of either sign comes back as
m × 2^(e−9), within 2^(e0−10), unless |x| ≥ 65472, which gives the infinity of its sign. -/
def Obligations.RoundTrip16Alternative : Prop :=
  ∀ (s : State) (a : PortWord) (x : ℚ), s.unanswered = false →
    s.params.enc16Boundary = 512 → s.params.dec16Signed = true →
    a >>> 16 = 0 → nativeQ 5 10 15 a = some x →
    ∃ w r, s.responseTo { op := 0b000#3, a := a } = some (.ok w) ∧
      s.responseTo { op := 0b100#3, a := w } = some (.ok r) ∧
      (|x| < 65472 → ∃ x' m e, nativeQ 5 10 15 r = some x' ∧
        Corrected 512 (roundQ s.params.ties (scaledQ 9 x)) (exponentQ x) m e ∧
        x' = m * 2 ^ (e - 9) ∧ |x' - x| ≤ 2 ^ (exponentQ x - 10)) ∧
      (65472 ≤ x → r = 0x7C00#64) ∧ (x ≤ -65472 → r = 0xFC00#64)

/-- R163, 16 bits, P_DEC16_SIGNED with the default boundary: every input whose m0 is +512 comes back negative, by
aliasing. -/
def Obligations.RoundTrip16Mixed : Prop :=
  ∀ (s : State) (a : PortWord) (x : ℚ), s.unanswered = false →
    s.params.enc16Boundary = 32768 → s.params.dec16Signed = true →
    a >>> 16 = 0 → nativeQ 5 10 15 a = some x → roundQ s.params.ties (scaledQ 9 x) = 512 →
    ∃ w r, s.responseTo { op := 0b000#3, a := a } = some (.ok w) ∧
      s.responseTo { op := 0b100#3, a := w } = some (.ok r) ∧
      (x < 65472 → nativeQ 5 10 15 r = some (-(2 ^ exponentQ x))) ∧ (65472 ≤ x → r = 0xFC00#64)

/-! ### The assembler form (R76) -/

/-- R76: a line assembles to its mnemonic's OP (R61) and its operand's A: a hexadecimal pattern zero-extended, or the R
of an earlier step. THE MODEL'S CHOICE (log entry 16): it stands for no request where the pattern has more than 64 bits
or that step has no R. -/
def Obligations.AssembledLine : Prop :=
  ∀ (answers : List Response) (n k : ℕ) (a : PortWord),
    (∀ m : Mnemonic,
      (n < 2 ^ 64 → ∃ rq, (AsmLine.line m (.hex n)).assemble answers = some rq ∧ rq.op = m.op ∧ rq.a.toNat = n) ∧
      (2 ^ 64 ≤ n → (AsmLine.line m (.hex n)).assemble answers = none) ∧
      (answers[k]? = some (.ok a) →
        (AsmLine.line m (.result (k + 1))).assemble answers = some { op := m.op, a := a }) ∧
      ((∀ v, answers[k]? ≠ some (.ok v)) → (AsmLine.line m (.result (k + 1))).assemble answers = none)) ∧
    decode (Request.word { op := Mnemonic.enc16.op, a := a }) = .instr (.enc16 a) ∧
    decode (Request.word { op := Mnemonic.enc32.op, a := a }) = .instr (.enc32 a) ∧
    decode (Request.word { op := Mnemonic.enc48.op, a := a }) = .instr (.enc48 a) ∧
    decode (Request.word { op := Mnemonic.dec16.op, a := a }) = .instr (.dec16 a) ∧
    decode (Request.word { op := Mnemonic.dec32.op, a := a }) = .instr (.dec32 a) ∧
    decode (Request.word { op := Mnemonic.dec48.op, a := a }) = .instr (.dec48 a)

/-- R76: for an encoder a decimal literal is the native pattern nearest to its exact value, ties to even (R154). THE
MODEL'S CHOICE (log entry 16): a literal of value zero is +0 whatever its sign, and a decoder line with a literal,
which R76 does not allow, stands for no request. -/
def Obligations.DecimalLiteral : Prop :=
  ∀ (answers : List Response) (d : Decimal),
    let v : ℚ := (if d.negative then -1 else 1) * d.digits * 10 ^ d.exponent
    (AsmLine.line .enc16 (.decimal d)).assemble answers =
      some { op := 0b000#3, a := BitVec.ofInt 64 (toNativeQ 5 10 15 v) } ∧
    (AsmLine.line .enc32 (.decimal d)).assemble answers =
      some { op := 0b001#3, a := BitVec.ofInt 64 (toNativeQ 8 23 127 v) } ∧
    (AsmLine.line .enc48 (.decimal d)).assemble answers =
      some { op := 0b010#3, a := BitVec.ofInt 64 (toNativeQ 11 52 1023 v) } ∧
    (∀ m : Mnemonic, m = .dec16 ∨ m = .dec32 ∨ m = .dec48 →
      (AsmLine.line m (.decimal d)).assemble answers = none)
end

