-- ==== Sys2Proof/Laws/Numeric.lean ====
section
/-!
SUPPORT. One lemma per operation of Machine/Numeric.lean, saying what it is over ℚ, and the facts of round_T that the
rules use (R103 to R105).
-/

namespace Sys2Proof.Laws

open Sys2Proof.Machine Sys2Proof.Safety

/-! ### Values -/

theorem two_zpow_pos (k : ℤ) : (0 : ℚ) < 2 ^ k := zpow_pos (by norm_num) k

@[simp] theorem valueQ_scale (x : Scaled) (k : ℤ) : valueQ (x.scale k) = valueQ x * 2 ^ k := by
  simp only [valueQ, Scaled.scale, mul_assoc]
  rw [zpow_add₀ (by norm_num)]

@[simp] theorem valueQ_eq_zero {x : Scaled} : valueQ x = 0 ↔ x.num = 0 := by
  simp [valueQ, (two_zpow_pos x.pow).ne']

theorem valueQ_neg_iff {x : Scaled} : valueQ x < 0 ↔ x.num < 0 := by
  have h := two_zpow_pos x.pow
  constructor
  · intro hx
    by_contra hn
    have : (0 : ℚ) ≤ x.num := by exact_mod_cast not_lt.mp hn
    exact absurd (mul_nonneg this h.le) (not_le.mpr hx)
  · intro hx
    exact mul_neg_of_neg_of_pos (by exact_mod_cast hx) h

theorem abs_valueQ (x : Scaled) : |valueQ x| = x.num.natAbs * 2 ^ x.pow := by
  rw [valueQ, abs_mul, abs_of_pos (two_zpow_pos x.pow), Nat.cast_natAbs, Int.cast_abs]

theorem valueQ_negate (x : Scaled) : valueQ { x with num := -x.num } = -valueQ x := by
  simp [valueQ]

theorem valueQ_add (x y : Scaled) : valueQ (x.add y) = valueQ x + valueQ y := by
  have key : ∀ (a b : ℤ), a ≤ b → (2 : ℚ) ^ (b - a).toNat * 2 ^ a = 2 ^ b := by
    intro a b hab
    rw [← zpow_natCast, ← zpow_add₀ (by norm_num), Int.toNat_of_nonneg (by omega)]
    congr 1
    omega
  unfold Scaled.add
  split
  · next h =>
    simp only [valueQ, Int.cast_add, Int.cast_mul, Int.cast_pow, Int.cast_ofNat, add_mul, mul_assoc, key _ _ h]
  · next h =>
    simp only [valueQ, Int.cast_add, Int.cast_mul, Int.cast_pow, Int.cast_ofNat, add_mul, mul_assoc,
      key _ _ (by omega : y.pow ≤ x.pow)]

/-! ### Exponents -/

theorem natCeilLog2_spec {n : ℕ} (hn : n ≠ 0) : n ≤ 2 ^ natCeilLog2 n ∧ 2 ^ natCeilLog2 n < 2 * n := by
  have hlo : 2 ^ n.log2 ≤ n := Nat.log2_self_le hn
  have hhi : n < 2 ^ (n.log2 + 1) := Nat.lt_log2_self
  unfold natCeilLog2
  split
  · next h => exact ⟨h, by omega⟩
  · next h => rw [pow_succ] at *; exact ⟨by omega, by omega⟩

/-- R103: e0 is the integer with 2^(e0−1) < |x| ≤ 2^e0. -/
theorem ceilLog2_spec {x : Scaled} (hx : x.num ≠ 0) :
    (2 : ℚ) ^ (x.ceilLog2 - 1) < |valueQ x| ∧ |valueQ x| ≤ 2 ^ x.ceilLog2 := by
  obtain ⟨hhi, hlo⟩ := natCeilLog2_spec (Int.natAbs_ne_zero.mpr hx)
  have hp := two_zpow_pos x.pow
  have hhi' : (x.num.natAbs : ℚ) ≤ 2 ^ (natCeilLog2 x.num.natAbs) := by exact_mod_cast hhi
  have hlo' : (2 : ℚ) ^ (natCeilLog2 x.num.natAbs) < 2 * x.num.natAbs := by exact_mod_cast hlo
  rw [abs_valueQ, Scaled.ceilLog2, zpow_sub₀ (by norm_num), zpow_add₀ (by norm_num), zpow_natCast]
  constructor
  · rw [zpow_one]; nlinarith
  · nlinarith

theorem exponentQ_eq_of {x : ℚ} {e : ℤ} (hlo : (2 : ℚ) ^ (e - 1) < |x|) (hhi : |x| ≤ 2 ^ e) : exponentQ x = e := by
  have hpos : 0 < |x| := lt_trans (two_zpow_pos _) hlo
  apply le_antisymm
  · exact (Int.le_zpow_iff_clog_le (b := 2) (by norm_num) hpos).mp (by exact_mod_cast hhi)
  · by_contra h
    have h1 : exponentQ x ≤ e - 1 := by omega
    have h2 := (Int.le_zpow_iff_clog_le (b := 2) (by norm_num) hpos).mpr h1
    exact absurd (by exact_mod_cast h2) (not_le.mpr hlo)

theorem exponentQ_spec {x : ℚ} (hx : x ≠ 0) : (2 : ℚ) ^ (exponentQ x - 1) < |x| ∧ |x| ≤ 2 ^ exponentQ x := by
  have hpos : 0 < |x| := abs_pos.mpr hx
  constructor
  · by_contra h
    have h1 : |x| ≤ ((2 : ℕ) : ℚ) ^ (exponentQ x - 1) := by exact_mod_cast not_lt.mp h
    have h2 := (Int.le_zpow_iff_clog_le (b := 2) (by norm_num) hpos).mp h1
    have : exponentQ x ≤ exponentQ x - 1 := h2
    omega
  · have := (Int.le_zpow_iff_clog_le (b := 2) (r := |x|) (x := exponentQ x) (by norm_num) hpos).mpr le_rfl
    exact_mod_cast this

theorem exponentQ_neg (x : ℚ) : exponentQ (-x) = exponentQ x := by simp [exponentQ]

theorem ceilLog2_eq_exponentQ {x : Scaled} (hx : x.num ≠ 0) : x.ceilLog2 = exponentQ (valueQ x) :=
  (exponentQ_eq_of (ceilLog2_spec hx).1 (ceilLog2_spec hx).2).symm

/-- R154: floor(log2 |x|). -/
theorem floorLog2_eq_log {x : Scaled} (hx : x.num ≠ 0) : x.floorLog2 = Int.log 2 |valueQ x| := by
  have hn := Int.natAbs_ne_zero.mpr hx
  have hp := two_zpow_pos x.pow
  have hlo : ((2 ^ x.num.natAbs.log2 : ℕ) : ℚ) ≤ x.num.natAbs := by exact_mod_cast Nat.log2_self_le hn
  have hhi : (x.num.natAbs : ℚ) < ((2 ^ (x.num.natAbs.log2 + 1) : ℕ) : ℚ) := by exact_mod_cast Nat.lt_log2_self
  have hpos : 0 < |valueQ x| := abs_pos.mpr (by simpa using hx)
  push_cast at hlo hhi
  have e1 : (2 : ℚ) ^ x.floorLog2 = 2 ^ x.num.natAbs.log2 * 2 ^ x.pow := by
    rw [Scaled.floorLog2, zpow_add₀ (by norm_num), zpow_natCast, mul_comm]
  have h1 : ((2 : ℕ) : ℚ) ^ x.floorLog2 ≤ |valueQ x| := by
    push_cast; rw [e1, abs_valueQ]; nlinarith
  have h2 : |valueQ x| < ((2 : ℕ) : ℚ) ^ (x.floorLog2 + 1) := by
    push_cast; rw [zpow_add₀ (by norm_num), e1, abs_valueQ, zpow_one]; rw [pow_succ] at hhi; nlinarith
  apply le_antisymm
  · exact (Int.zpow_le_iff_le_log (by norm_num) hpos).mp h1
  · have := (Int.lt_zpow_iff_log_lt (by norm_num) hpos).mp h2
    omega

/-! ### Rounding -/

theorem divAway_eq {n d : ℕ} (hd : 0 < d) : (divAway n d : ℤ) = ⌊(n : ℚ) / d + 1 / 2⌋ := by
  have hd' : (0 : ℚ) < d := by exact_mod_cast hd
  have h : (n : ℚ) / d + 1 / 2 = ((2 * n + d : ℕ) : ℚ) / ((2 * d : ℕ) : ℚ) := by push_cast; field_simp
  rw [h, divAway, Rat.floor_natCast_div_natCast]
  norm_cast

theorem divEven_eq {n d : ℕ} (hd : 0 < d) : (divEven n d : ℤ) = roundEvenQ ((n : ℚ) / d) := by
  have hd' : (0 : ℚ) < d := by exact_mod_cast hd
  have hf : ⌊(n : ℚ) / d⌋ = ((n / d : ℕ) : ℤ) := by rw [Rat.floor_natCast_div_natCast]; norm_cast
  have hfrac : (n : ℚ) / d - ((n / d : ℕ) : ℤ) = ((n % d : ℕ) : ℚ) / d := by
    have : (n : ℚ) = d * ((n / d : ℕ) : ℚ) + ((n % d : ℕ) : ℚ) := by exact_mod_cast (Nat.div_add_mod n d).symm
    rw [Int.cast_natCast]
    field_simp
    linarith
  have hlt : ((n % d : ℕ) : ℚ) / d < 1 / 2 ↔ 2 * (n % d) < d := by
    rw [div_lt_div_iff₀ hd' (by norm_num)]; norm_cast; omega
  have hgt : 1 / 2 < ((n % d : ℕ) : ℚ) / d ↔ d < 2 * (n % d) := by
    rw [div_lt_div_iff₀ (by norm_num) hd']; norm_cast; omega
  have hev : Even ((n / d : ℕ) : ℤ) ↔ n / d % 2 = 0 := by rw [Int.even_coe_nat, Nat.even_iff]
  simp only [roundEvenQ, divEven, hf, hfrac, hlt, hgt, hev]
  split_ifs <;> push_cast <;> rfl

theorem roundEvenQ_intCast (n : ℤ) : roundEvenQ n = n := by simp [roundEvenQ]

theorem roundQ_intCast (t : Ties) (n : ℤ) : roundQ t n = n := by
  cases t with
  | even => exact roundEvenQ_intCast n
  | away =>
    have h : ∀ k : ℤ, ⌊(k : ℚ) + 1 / 2⌋ = k := by intro k; rw [Int.floor_intCast_add]; norm_num
    have habs : |(n : ℚ)| = ((|n| : ℤ) : ℚ) := by push_cast; rfl
    rw [roundQ, habs, h]
    have hneg : ((n : ℚ) < 0) ↔ n < 0 := by exact_mod_cast Iff.rfl
    simp only [hneg]
    split
    · next h0 => rw [abs_of_neg h0]; ring
    · next h0 => rw [abs_of_nonneg (by omega)]; ring

/-- n × 2^k to the nearest natural number. -/
theorem roundNat_eq (t : Ties) (n : ℕ) (k : ℤ) : (roundNat t n k : ℤ) = roundQ t ((n : ℚ) * 2 ^ k) := by
  have hz := two_zpow_pos k
  have hn : (0 : ℚ) ≤ (n : ℚ) * 2 ^ k := mul_nonneg (by positivity) hz.le
  unfold roundNat
  split
  · next hk =>
    have : (n : ℚ) * 2 ^ k = ((n * 2 ^ k.toNat : ℕ) : ℤ) := by
      push_cast
      rw [← zpow_natCast, Int.toNat_of_nonneg hk]
    rw [this, roundQ_intCast]
  · next hk =>
    have hd : (n : ℚ) * 2 ^ k = (n : ℚ) / ((2 ^ (-k).toNat : ℕ) : ℚ) := by
      push_cast
      rw [← zpow_natCast, Int.toNat_of_nonneg (by omega), zpow_neg, div_inv_eq_mul]
    have hpos : 0 < 2 ^ (-k).toNat := by positivity
    cases t with
    | away =>
      rw [divNearest, divAway_eq hpos, ← hd, roundQ, if_neg (not_lt.mpr hn), abs_of_nonneg hn, one_mul]
    | even => rw [divNearest, divEven_eq hpos, ← hd, roundQ]

theorem roundEvenQ_neg (y : ℚ) : roundEvenQ (-y) = -roundEvenQ y := by
  by_cases hy : (⌊y⌋ : ℚ) = y
  · rw [← hy, ← Int.cast_neg, roundEvenQ_intCast, roundEvenQ_intCast]
  · have h0 := Int.floor_le y
    have h1 := Int.lt_floor_add_one y
    have hlt : (⌊y⌋ : ℚ) < y := lt_of_le_of_ne h0 hy
    have hf : ⌊-y⌋ = -⌊y⌋ - 1 := by
      rw [Int.floor_eq_iff]; push_cast; constructor <;> linarith
    have hpar : Even (-⌊y⌋ - 1) ↔ ¬Even ⌊y⌋ := by
      rw [Int.even_sub_one, even_neg]
    simp only [roundEvenQ, hf, hpar]
    push_cast
    split_ifs <;> first | (exfalso; linarith) | ring

theorem roundQ_neg (t : Ties) (y : ℚ) : roundQ t (-y) = -roundQ t y := by
  cases t with
  | even => exact roundEvenQ_neg y
  | away =>
    simp only [roundQ, abs_neg]
    rcases lt_trichotomy y 0 with h | h | h
    · rw [if_neg (by linarith), if_pos h]; ring
    · subst h; norm_num
    · rw [if_pos (by linarith), if_neg (by linarith)]; ring

/-- round_T of R104. -/
theorem round_eq_roundQ (t : Ties) (y : Scaled) : y.round t = roundQ t (valueQ y) := by
  rw [Scaled.round, roundNat_eq, ← abs_valueQ]
  rcases lt_trichotomy y.num 0 with h | h | h
  · rw [Int.sign_eq_neg_one_of_neg h, abs_of_neg (valueQ_neg_iff.mpr h), roundQ_neg]; ring
  · have h0 : valueQ y = ((0 : ℤ) : ℚ) := by rw [Int.cast_zero]; exact valueQ_eq_zero.mpr h
    rw [h0, roundQ_intCast, h]; simp
  · rw [Int.sign_eq_one_of_pos h, abs_of_nonneg, one_mul]
    exact not_lt.mp (fun hn => absurd (valueQ_neg_iff.mp hn) (by omega))

/-- round_T is within 1/2 of its argument. -/
theorem abs_roundQ_sub_le (t : Ties) (y : ℚ) : |(roundQ t y : ℚ) - y| ≤ 1 / 2 := by
  cases t with
  | even =>
    have h0 := Int.floor_le y
    have h1 := Int.lt_floor_add_one y
    simp only [roundQ, roundEvenQ]
    rw [abs_le]
    split_ifs <;> push_cast <;> constructor <;> linarith
  | away =>
    have h0 := Int.floor_le (|y| + 1 / 2)
    have h1 := Int.lt_floor_add_one (|y| + 1 / 2)
    simp only [roundQ]
    rw [abs_le]
    split
    · next h => rw [abs_of_neg h] at *; push_cast; constructor <;> linarith
    · next h => rw [abs_of_nonneg (not_lt.mp h)] at *; push_cast; constructor <;> linarith

/-- Off a tie the nearest integer is one, whatever the tie rule. -/
theorem roundQ_eq_of_near {t : Ties} {y : ℚ} {n : ℤ} (h : |(n : ℚ) - y| < 1 / 2) : roundQ t y = n := by
  have h1 := abs_roundQ_sub_le t y
  rw [abs_le] at h1
  rw [abs_lt] at h
  have hlt : ((roundQ t y : ℤ) : ℚ) < ((n + 1 : ℤ) : ℚ) := by push_cast; linarith
  have hgt : ((n - 1 : ℤ) : ℚ) < ((roundQ t y : ℤ) : ℚ) := by push_cast; linarith
  have := Int.cast_lt.mp hlt
  have := Int.cast_lt.mp hgt
  omega

theorem le_roundQ {t : Ties} {y : ℚ} {n : ℤ} (h : (n : ℚ) ≤ y) : n ≤ roundQ t y := by
  rcases h.eq_or_lt with h | h
  · rw [← h, roundQ_intCast]
  · have h1 := abs_roundQ_sub_le t y
    rw [abs_le] at h1
    have : ((n - 1 : ℤ) : ℚ) < ((roundQ t y : ℤ) : ℚ) := by push_cast; linarith
    have := Int.cast_lt.mp this
    omega

theorem roundQ_le {t : Ties} {y : ℚ} {n : ℤ} (h : y ≤ n) : roundQ t y ≤ n := by
  have := le_roundQ (t := t) (y := -y) (n := -n) (by push_cast; linarith)
  rw [roundQ_neg] at this
  omega

theorem abs_roundQ (t : Ties) (y : ℚ) : |roundQ t y| = roundQ t |y| := by
  rcases le_or_gt 0 y with h | h
  · rw [abs_of_nonneg h, abs_of_nonneg (le_roundQ (by simpa using h))]
  · rw [abs_of_neg h, roundQ_neg, abs_of_nonpos (roundQ_le (by simpa using h.le))]

/-- A tie half way below an even integer goes up to it under either rule (R105). -/
theorem roundQ_half_below_even {t : Ties} {n : ℤ} (hn : Even n) (hp : 0 < n) : roundQ t ((n : ℚ) - 1 / 2) = n := by
  have h1 : (1 : ℚ) ≤ n := by exact_mod_cast hp
  have hf : ⌊(n : ℚ) - 1 / 2⌋ = n - 1 := by rw [Int.floor_eq_iff]; push_cast; constructor <;> linarith
  cases t with
  | even =>
    have hodd : ¬Even (n - 1) := by rw [Int.even_sub_one, not_not]; exact hn
    simp only [roundQ, roundEvenQ, hf, if_neg hodd]
    push_cast
    rw [if_neg (by linarith), if_neg (by linarith)]
    ring
  | away =>
    rw [roundQ, if_neg (by linarith), abs_of_nonneg (by linarith), sub_add_cancel, Int.floor_intCast, one_mul]

/-! ### The scaled mantissa -/

/-- R105: 2^(F−1) < |y| ≤ 2^F. -/
theorem scaledQ_range {x : ℚ} (hx : x ≠ 0) (f : ℤ) :
    (2 : ℚ) ^ (f - 1) < |scaledQ f x| ∧ |scaledQ f x| ≤ 2 ^ f := by
  obtain ⟨hlo, hhi⟩ := exponentQ_spec hx
  have hp := two_zpow_pos (f - exponentQ x)
  rw [scaledQ, abs_mul, abs_of_pos hp]
  constructor
  · calc (2 : ℚ) ^ (f - 1) = 2 ^ (exponentQ x - 1) * 2 ^ (f - exponentQ x) := by
          rw [← zpow_add₀ (by norm_num)]; congr 1; ring
      _ < _ := mul_lt_mul_of_pos_right hlo hp
  · calc |x| * 2 ^ (f - exponentQ x) ≤ 2 ^ exponentQ x * 2 ^ (f - exponentQ x) := mul_le_mul_of_nonneg_right hhi hp.le
      _ = 2 ^ f := by rw [← zpow_add₀ (by norm_num)]; congr 1; ring

theorem scaledQ_neg (f : ℤ) (x : ℚ) : scaledQ f (-x) = -scaledQ f x := by
  rw [scaledQ, scaledQ, exponentQ_neg]; ring

/-- Undoing the scaling of R104. -/
theorem scaledQ_mul (f : ℤ) (x : ℚ) : scaledQ f x * 2 ^ (exponentQ x - f) = x := by
  rw [scaledQ, mul_assoc, ← zpow_add₀ (by norm_num)]
  simp

/-- R105: the range of the rounded mantissa. -/
theorem roundQ_scaledQ_range {x : ℚ} (hx : x ≠ 0) (t : Ties) (f : ℕ) (hf : 1 ≤ f) :
    2 ^ (f - 1) ≤ |roundQ t (scaledQ f x)| ∧ |roundQ t (scaledQ f x)| ≤ 2 ^ f ∧
    (|roundQ t (scaledQ f x)| = 2 ^ f ↔ (2 : ℚ) ^ f - 1 / 2 ≤ |scaledQ f x|) := by
  obtain ⟨hlo, hhi⟩ := scaledQ_range hx f
  have hlo' : (((2 ^ (f - 1) : ℕ) : ℤ) : ℚ) ≤ |scaledQ f x| := by
    push_cast
    have : ((f : ℤ) - 1) = ((f - 1 : ℕ) : ℤ) := by omega
    rw [this, zpow_natCast] at hlo
    exact hlo.le
  have hhi' : |scaledQ f x| ≤ (((2 ^ f : ℕ) : ℤ) : ℚ) := by
    push_cast; rw [zpow_natCast] at hhi; exact hhi
  rw [abs_roundQ]
  have a := le_roundQ (t := t) hlo'
  have b := roundQ_le (t := t) hhi'
  push_cast at a b
  refine ⟨a, b, ?_, ?_⟩
  · intro h
    have h1 := abs_roundQ_sub_le t |scaledQ f x|
    rw [h, abs_le] at h1
    push_cast at h1
    linarith
  · intro h
    apply le_antisymm b
    have hev : Even ((2 : ℤ) ^ f) := (even_two).pow_of_ne_zero (by omega)
    have e : roundQ t ((((2 : ℤ) ^ f : ℤ) : ℚ) - 1 / 2) = 2 ^ f := roundQ_half_below_even hev (by positivity)
    rcases h.eq_or_lt with h | h
    · rw [← h]; push_cast at e; exact e.ge
    · have : |((((2 : ℤ) ^ f : ℤ)) : ℚ) - abs (scaledQ f x)| < 1 / 2 := by
        push_cast at hhi' ⊢
        rw [abs_lt]; constructor <;> linarith
      exact (roundQ_eq_of_near this).ge

/-- R104, R116: the two tie rules part exactly at a tie above an even integer, and there by 1. -/
theorem roundQ_away_even (y : ℚ) :
    (roundQ .away y ≠ roundQ .even y ↔ IsTie y ∧ Even ⌊|y|⌋) ∧
    (IsTie y → Even ⌊|y|⌋ → |roundQ .away y| = |roundQ .even y| + 1) := by
  have key : ∀ z : ℚ, 0 ≤ z → (roundQ .away z ≠ roundQ .even z ↔ z - ⌊z⌋ = 1 / 2 ∧ Even ⌊z⌋) ∧
      (z - ⌊z⌋ = 1 / 2 → Even ⌊z⌋ → roundQ .away z = roundQ .even z + 1) := by
    intro z hz
    by_cases ht : z - ⌊z⌋ = 1 / 2
    · have haway : roundQ .away z = ⌊z⌋ + 1 := by
        have : ⌊z + 1 / 2⌋ = ⌊z⌋ + 1 := by rw [Int.floor_eq_iff]; push_cast; constructor <;> linarith
        rw [roundQ, if_neg (not_lt.mpr hz), abs_of_nonneg hz, this, one_mul]
      have heven : roundQ .even z = if Even ⌊z⌋ then ⌊z⌋ else ⌊z⌋ + 1 := by
        rw [roundQ, roundEvenQ, if_neg (by linarith), if_neg (by linarith)]
      by_cases he : Even ⌊z⌋ <;> simp [haway, heven, he, ht]
    · refine ⟨iff_of_false ?_ (fun h => ht h.1), fun h => absurd h ht⟩
      have h0 := Int.floor_le z
      have h1 := Int.lt_floor_add_one z
      rw [not_not]
      rcases lt_or_gt_of_ne ht with h | h
      · have hn : |((⌊z⌋ : ℤ) : ℚ) - z| < 1 / 2 := by rw [abs_lt]; constructor <;> linarith
        rw [roundQ_eq_of_near hn, roundQ_eq_of_near hn]
      · have hn : |((⌊z⌋ + 1 : ℤ) : ℚ) - z| < 1 / 2 := by rw [abs_lt]; push_cast; constructor <;> linarith
        rw [roundQ_eq_of_near hn, roundQ_eq_of_near hn]
  obtain ⟨k1, k2⟩ := key |y| (abs_nonneg y)
  refine ⟨Iff.trans (not_congr ?_) k1, fun ht he => by rw [abs_roundQ, abs_roundQ]; exact k2 ht he⟩
  rcases le_or_gt 0 y with hy | hy
  · rw [abs_of_nonneg hy]
  · rw [abs_of_neg hy, roundQ_neg, roundQ_neg, neg_inj]

end Sys2Proof.Laws
end

