-- ==== Sys2Proof/Laws/Operands.lean ====
section
/-!
SUPPORT. What Machine/Operands.lean's operations are over ℚ: a native pattern's value (R68), the fields of a packed
native pattern, and to_ieee (R154) with its exactness.
-/

namespace Sys2Proof.Laws

open Sys2Proof.Machine Sys2Proof.Safety

/-! ### The formats -/

theorem fmt_top (f : Fmt) : 2 ^ f.expBits - 1 = 2 * f.bias + 1 := by cases f <;> rfl

theorem fmt_bits (f : Fmt) : f.expBits + f.fracBits + 1 ≤ 64 := by cases f <;> decide

theorem fmt_bias_pos (f : Fmt) : 1 ≤ f.bias := by cases f <;> decide

/-! ### ieee_value -/

theorem expField_eq (f : Fmt) (b : PortWord) : expField f b = (b.extractLsb' f.fracBits f.expBits).toNat := by
  rw [expField, BitVec.extractLsb'_toNat, Nat.shiftRight_eq_div_pow]

theorem fracField_eq (f : Fmt) (b : PortWord) : fracField f b = (b.extractLsb' 0 f.fracBits).toNat := by
  rw [fracField, BitVec.extractLsb'_toNat, Nat.shiftRight_zero]

theorem cast_signed (s : Bool) (n : ℕ) : ((signed s n : ℤ) : ℚ) = (if s then -1 else 1) * n := by
  cases s <;> simp [signed]

/-- R68 over ℚ. -/
theorem nativeQ_eq (f : Fmt) (b : PortWord) :
    nativeQ f.expBits f.fracBits f.bias b =
      match ieeeValue f b with
      | .nan => none
      | .inf _ => none
      | .finite x => some (valueQ x) := by
  simp only [nativeQ, ieeeValue, ← expField_eq, ← fracField_eq, signBit, Fmt.signIndex]
  split_ifs <;> simp_all [valueQ, cast_signed]

theorem nativeQ_of_finite {f : Fmt} {b : PortWord} {x : Scaled} (h : ieeeValue f b = .finite x) :
    nativeQ f.expBits f.fracBits f.bias b = some (valueQ x) := by rw [nativeQ_eq, h]

theorem finite_of_nativeQ {f : Fmt} {b : PortWord} {q : ℚ}
    (h : nativeQ f.expBits f.fracBits f.bias b = some q) : ∃ x, ieeeValue f b = .finite x ∧ valueQ x = q := by
  rw [nativeQ_eq] at h
  cases hv : ieeeValue f b <;> rw [hv] at h <;> simp_all

/-- A pattern is not finite exactly when its exponent field is all ones. -/
theorem nativeQ_eq_none {f : Fmt} {b : PortWord} :
    nativeQ f.expBits f.fracBits f.bias b = none ↔ expField f b = 2 ^ f.expBits - 1 := by
  simp only [nativeQ, ← expField_eq]
  split_ifs <;> simp_all

/-- The sign bit of a nonzero finite pattern is its value's sign. -/
theorem signBit_eq {f : Fmt} {b : PortWord} {x : Scaled} (h : ieeeValue f b = .finite x) (hx : x.num ≠ 0) :
    signBit f b = decide (x.num < 0) := by
  simp only [ieeeValue] at h
  have hp : (0 : ℤ) < 2 ^ f.fracBits := by positivity
  have pos : ∀ n : ℕ, (signed (signBit f b) n) ≠ 0 → signBit f b = decide (signed (signBit f b) n < 0) := by
    intro n hn
    cases hs : signBit f b <;> simp_all [signed]
    omega
  split_ifs at h <;> cases h
  · exact pos _ hx
  · exact pos _ hx

/-! ### Packed patterns -/

theorem packIeee_toNat {f : Fmt} {s : Bool} {x t : ℕ} (hx : x < 2 ^ f.expBits) (ht : t < 2 ^ f.fracBits) :
    (packIeee f s x t).toNat = (if s then 2 ^ f.signIndex else 0) + x * 2 ^ f.fracBits + t ∧
    x * 2 ^ f.fracBits + t < 2 ^ f.signIndex := by
  have h1 : x * 2 ^ f.fracBits + t < 2 ^ f.signIndex := by
    rw [Fmt.signIndex, pow_add]
    calc x * 2 ^ f.fracBits + t < (x + 1) * 2 ^ f.fracBits := by rw [add_mul, one_mul]; omega
      _ ≤ _ := Nat.mul_le_mul_right _ hx
  have h2 : 2 ^ (f.signIndex + 1) ≤ 2 ^ 64 := Nat.pow_le_pow_right (by norm_num) (fmt_bits f)
  refine ⟨?_, h1⟩
  rw [packIeee, BitVec.toNat_ofNat, Nat.mod_eq_of_lt]
  rw [pow_succ] at h2
  split <;> omega

theorem packIeee_fields {f : Fmt} {s : Bool} {x t : ℕ} (hx : x < 2 ^ f.expBits) (ht : t < 2 ^ f.fracBits) :
    expField f (packIeee f s x t) = x ∧ fracField f (packIeee f s x t) = t ∧ signBit f (packIeee f s x t) = s := by
  obtain ⟨hn, hlt⟩ := packIeee_toNat (s := s) hx ht
  have hfp : 0 < 2 ^ f.fracBits := by positivity
  have hsplit : (if s then 2 ^ f.signIndex else 0) + x * 2 ^ f.fracBits + t
      = t + 2 ^ f.fracBits * ((if s then 2 ^ f.expBits else 0) + x) := by
    rw [Fmt.signIndex, pow_add]; split <;> ring
  refine ⟨?_, ?_, ?_⟩
  · rw [expField, hn, hsplit, Nat.add_mul_div_left _ _ hfp, Nat.div_eq_of_lt ht, zero_add]
    split
    · rw [Nat.add_mod_left, Nat.mod_eq_of_lt hx]
    · rw [zero_add, Nat.mod_eq_of_lt hx]
  · rw [fracField, hn, hsplit, Nat.add_mul_mod_self_left, Nat.mod_eq_of_lt ht]
  · rw [signBit, BitVec.getLsbD, hn, add_assoc, Nat.testBit_eq_decide_div_mod_eq]
    cases s with
    | true => simp [Nat.add_div_left, Nat.div_eq_of_lt hlt]
    | false => simp [Nat.div_eq_of_lt hlt]

theorem packIeee_shiftRight {f : Fmt} {s : Bool} {x t : ℕ} (hx : x < 2 ^ f.expBits) (ht : t < 2 ^ f.fracBits) :
    packIeee f s x t >>> (f.signIndex + 1) = 0 := by
  obtain ⟨hn, hlt⟩ := packIeee_toNat (s := s) hx ht
  apply BitVec.eq_of_toNat_eq
  rw [BitVec.toNat_ushiftRight, hn, Nat.shiftRight_eq_div_pow, Nat.div_eq_of_lt]
  · rfl
  · rw [pow_succ]; split <;> omega

/-- The value of a packed finite pattern (R68). -/
theorem nativeQ_packIeee {f : Fmt} {s : Bool} {x t : ℕ} (hx : x < 2 ^ f.expBits - 1) (ht : t < 2 ^ f.fracBits) :
    nativeQ f.expBits f.fracBits f.bias (packIeee f s x t) =
      some ((if s then -1 else 1) *
        (if x = 0 then (t : ℚ) * 2 ^ (1 - (f.bias : ℤ) - f.fracBits)
          else (2 ^ f.fracBits + t) * 2 ^ ((x : ℤ) - f.bias - f.fracBits))) := by
  obtain ⟨h1, h2, h3⟩ := packIeee_fields (s := s) (by omega : x < 2 ^ f.expBits) ht
  rw [signBit, Fmt.signIndex] at h3
  simp only [nativeQ, ← expField_eq, ← fracField_eq, h1, h2, h3, if_neg hx.ne]
  split_ifs <;> congr 1 <;> ring

/-! ### to_ieee -/

/-- The exponent E of R154 before the carry. -/
theorem ieeeSignificand_eq {f : Fmt} {v : Scaled} (hv : v.num ≠ 0) :
    ieeeSignificand f v =
      (if roundEvenQ (|valueQ v| / 2 ^ (max (Int.log 2 |valueQ v|) (1 - (f.bias : ℤ)) - f.fracBits)) = 2 ^ (f.fracBits + 1)
        then (2 ^ f.fracBits, max (Int.log 2 |valueQ v|) (1 - (f.bias : ℤ)) + 1)
        else ((roundEvenQ (|valueQ v| / 2 ^ (max (Int.log 2 |valueQ v|) (1 - (f.bias : ℤ)) - f.fracBits))).toNat,
          max (Int.log 2 |valueQ v|) (1 - (f.bias : ℤ)))) := by
  have hn : (roundNat .even v.num.natAbs (v.pow + f.fracBits - max v.floorLog2 (1 - (f.bias : ℤ))) : ℤ)
      = roundEvenQ (|valueQ v| / 2 ^ (max (Int.log 2 |valueQ v|) (1 - (f.bias : ℤ)) - f.fracBits)) := by
    rw [roundNat_eq, roundQ, ← floorLog2_eq_log hv, abs_valueQ, mul_div_assoc, ← zpow_sub₀ (by norm_num)]
    congr 3
    ring
  simp only [ieeeSignificand, carrySignificand]
  rw [← hn, ← floorLog2_eq_log hv, Int.toNat_natCast]
  have : ((roundNat .even v.num.natAbs (v.pow + f.fracBits - max v.floorLog2 (1 - (f.bias : ℤ))) : ℤ)
      = 2 ^ (f.fracBits + 1)) ↔ roundNat .even v.num.natAbs (v.pow + f.fracBits - max v.floorLog2 (1 - (f.bias : ℤ)))
      = 2 ^ (f.fracBits + 1) := by exact_mod_cast Iff.rfl
  simp only [this]

/-- The significand of R154: below 2^(p+1), and below 2^p only at the least exponent. -/
theorem significandQ_range {a : ℚ} (ha : 0 < a) (p : ℕ) (emin : ℤ) :
    0 ≤ roundEvenQ (a / 2 ^ (max (Int.log 2 a) emin - p)) ∧
    roundEvenQ (a / 2 ^ (max (Int.log 2 a) emin - p)) ≤ 2 ^ (p + 1) ∧
    (emin < max (Int.log 2 a) emin → 2 ^ p ≤ roundEvenQ (a / 2 ^ (max (Int.log 2 a) emin - p))) := by
  have hz := two_zpow_pos (max (Int.log 2 a) emin - p)
  have hsplit : ∀ k : ℤ, (2 : ℚ) ^ (max (Int.log 2 a) emin + k) = 2 ^ (p + k) * 2 ^ (max (Int.log 2 a) emin - p) := by
    intro k; rw [← zpow_add₀ (by norm_num)]; congr 1; ring
  refine ⟨?_, ?_, ?_⟩
  · exact le_roundQ (t := .even) (n := 0) (by push_cast; positivity)
  · apply roundQ_le (t := .even)
    rw [div_le_iff₀ hz]
    push_cast
    have h1 := Int.lt_zpow_succ_log_self (b := 2) (by norm_num) a
    push_cast at h1
    calc a ≤ (2 : ℚ) ^ (Int.log 2 a + 1) := h1.le
      _ ≤ 2 ^ (max (Int.log 2 a) emin + 1) := zpow_le_zpow_right₀ (by norm_num) (by omega)
      _ = _ := by rw [hsplit]; norm_cast
  · intro h
    apply le_roundQ (t := .even)
    rw [le_div_iff₀ hz]
    push_cast
    have h1 := Int.zpow_log_le_self (b := 2) (by norm_num) ha
    push_cast at h1
    calc (2 : ℚ) ^ p * 2 ^ (max (Int.log 2 a) emin - p) = 2 ^ max (Int.log 2 a) emin := by
          have := hsplit 0; rw [add_zero, add_zero, zpow_natCast] at this; exact this.symm
      _ = 2 ^ Int.log 2 a := by congr 1; omega
      _ ≤ a := h1

/-- What to_ieee can answer: +0 for a zero; else sign, exponent field and fraction of one of R154's three forms. -/
theorem toIeee_cases (f : Fmt) (v : Scaled) :
    (v.num = 0 ∧ toIeee f v = 0) ∨
    (v.num ≠ 0 ∧ ∃ x t, x < 2 ^ f.expBits ∧ t < 2 ^ f.fracBits ∧ (x = 2 ^ f.expBits - 1 → t = 0) ∧
      toIeee f v = packIeee f (decide (v.num < 0)) x t) := by
  by_cases hv : v.num = 0
  · left; exact ⟨hv, by rw [toIeee, if_pos hv]⟩
  right
  refine ⟨hv, ?_⟩
  have hpos : 0 < |valueQ v| := abs_pos.mpr (by simpa using hv)
  have hp : 0 < 2 ^ f.fracBits := by positivity
  have hw : 0 < 2 ^ f.expBits := by positivity
  have htop := fmt_top f
  obtain ⟨h0, h1, h2⟩ := significandQ_range hpos f.fracBits (1 - (f.bias : ℤ))
  rw [toIeee, if_neg hv]
  simp only [packSignificand, ieeeSignificand_eq hv]
  generalize hE : max (Int.log 2 |valueQ v|) (1 - (f.bias : ℤ)) = E at *
  have hEmin : 1 - (f.bias : ℤ) ≤ E := hE ▸ le_max_right _ _
  generalize hN : roundEvenQ (|valueQ v| / 2 ^ (E - f.fracBits)) = N at *
  obtain ⟨n, rfl⟩ := Int.eq_ofNat_of_zero_le h0
  have h1' : n ≤ 2 ^ (f.fracBits + 1) := by exact_mod_cast h1
  have h2' : 1 - (f.bias : ℤ) < E → 2 ^ f.fracBits ≤ n := fun h => by exact_mod_cast h2 h
  have hcast : ((n : ℤ) = 2 ^ (f.fracBits + 1)) ↔ n = 2 ^ (f.fracBits + 1) := by exact_mod_cast Iff.rfl
  rw [pow_succ] at h1' hcast
  simp only [Int.toNat_natCast]
  by_cases hc : (n : ℤ) = 2 ^ (f.fracBits + 1)
  · rw [if_pos hc]
    dsimp only
    split_ifs with ho hs
    · exact ⟨_, 0, by omega, hp, fun _ => rfl, rfl⟩
    · omega
    · exact ⟨(E + 1 + f.bias).toNat, _, by omega, by omega, by omega, rfl⟩
  · rw [if_neg hc]
    rw [pow_succ] at hc
    rw [hcast] at hc
    dsimp only
    split_ifs with ho hs
    · exact ⟨_, 0, by omega, hp, fun _ => rfl, rfl⟩
    · exact ⟨0, n, by omega, hs, by omega, rfl⟩
    · exact ⟨(E + f.bias).toNat, n - 2 ^ f.fracBits, by omega, by omega, by omega, rfl⟩

/-- R154's carry and packing of a rounded magnitude, over ℚ. -/
theorem packSignificand_eq (f : Fmt) (s : Bool) {a : ℚ} (ha : 0 < a) {n : ℕ} {E : ℤ}
    (hE : max (Int.log 2 a) (1 - (f.bias : ℤ)) = E) (hN : (n : ℤ) = roundEvenQ (a / 2 ^ (E - f.fracBits))) :
    packSignificand f s (carrySignificand f n E) =
      BitVec.ofInt 64 (toNativeQ f.expBits f.fracBits f.bias ((if s then -1 else 1) * a)) := by
  obtain ⟨h0, h1, h2⟩ := significandQ_range ha f.fracBits (1 - (f.bias : ℤ))
  have hv : (if s then -1 else 1) * a ≠ 0 := by cases s <;> simp [ha.ne']
  have habs : |(if s then -1 else 1) * a| = a := by cases s <;> simp [abs_of_pos ha]
  have hsign : s = decide ((if s then -1 else 1) * a < 0) := by cases s <;> simp [ha, ha.le]
  have hEmin : 1 - (f.bias : ℤ) ≤ E := hE ▸ le_max_right _ _
  rw [hE, ← hN] at h2
  rw [toNativeQ, if_neg hv]
  simp only [habs, hE, ← hN, carrySignificand]
  generalize (if s then -1 else 1) * a = v at *
  subst hsign
  have hpow : ∀ k : ℕ, ((2 ^ k : ℕ) : ℤ) = 2 ^ k := fun k => by push_cast; rfl
  have htop : ((2 ^ f.expBits - 1 : ℕ) : ℤ) = 2 ^ f.expBits - 1 := by
    have : 1 ≤ 2 ^ f.expBits := Nat.one_le_two_pow
    push_cast [this]; rfl
  have hlt : ((n : ℤ) < 2 ^ f.fracBits) ↔ n < 2 ^ f.fracBits := by exact_mod_cast Iff.rfl
  have hcar : ((n : ℤ) = 2 ^ (f.fracBits + 1)) ↔ n = 2 ^ (f.fracBits + 1) := by exact_mod_cast Iff.rfl
  simp only [packSignificand, packIeee, Fmt.signIndex, ← BitVec.ofInt_natCast, hcar]
  have he1 : ((E + 1 + f.bias).toNat : ℤ) = E + 1 + f.bias := Int.toNat_of_nonneg (by omega)
  have he : ((E + f.bias).toNat : ℤ) = E + f.bias := Int.toNat_of_nonneg (by omega)
  by_cases hc : n = 2 ^ (f.fracBits + 1)
  · simp only [if_pos hc, lt_irrefl, if_false, Nat.sub_self]
    by_cases hs : v < 0 <;> by_cases ho : (f.bias : ℤ) < E + 1 <;>
      simp only [hs, ho, decide_true, decide_false, if_true, if_false, Bool.false_eq_true] <;>
      congr 1 <;> push_cast [htop, he1] <;> ring
  · simp only [if_neg hc, hlt]
    by_cases hn : n < 2 ^ f.fracBits
    · by_cases hs : v < 0 <;> by_cases ho : (f.bias : ℤ) < E <;>
        simp only [hs, ho, hn, decide_true, decide_false, if_true, if_false, Bool.false_eq_true] <;>
        congr 1 <;> push_cast [htop] <;> ring
    · have hsub : ((n - 2 ^ f.fracBits : ℕ) : ℤ) = n - 2 ^ f.fracBits := by push_cast [not_lt.mp hn]; rfl
      by_cases hs : v < 0 <;> by_cases ho : (f.bias : ℤ) < E <;>
        simp only [hs, ho, hn, decide_true, decide_false, if_true, if_false, Bool.false_eq_true] <;>
        congr 1 <;> push_cast [htop, he, hsub] <;> ring

/-- R154 over ℚ: to_ieee is what the rule writes. -/
theorem toIeee_eq (f : Fmt) (v : Scaled) :
    toIeee f v = BitVec.ofInt 64 (toNativeQ f.expBits f.fracBits f.bias (valueQ v)) := by
  by_cases hv : v.num = 0
  · rw [toIeee, if_pos hv, toNativeQ, if_pos (valueQ_eq_zero.mpr hv)]; rfl
  have hpos : 0 < |valueQ v| := abs_pos.mpr (by simpa using hv)
  have hval : valueQ v = (if decide (v.num < 0) = true then -1 else 1) * |valueQ v| := by
    by_cases h : v.num < 0
    · simp [h, abs_of_neg (valueQ_neg_iff.mpr h)]
    · have : 0 ≤ valueQ v := not_lt.mp (fun hn => h (valueQ_neg_iff.mp hn))
      simp [h, abs_of_nonneg this]
  rw [toIeee, if_neg hv, ieeeSignificand]
  conv_rhs => rw [hval]
  refine packSignificand_eq f _ hpos (by rw [floorLog2_eq_log hv]) ?_
  rw [roundNat_eq, roundQ, abs_valueQ, mul_div_assoc, ← zpow_sub₀ (by norm_num)]
  congr 3
  ring

/-- to_ieee of a value the format holds is that value: an integer multiple of the unit in the last place at its
binade, inside the format's range. -/
theorem nativeQ_toIeee_exact {f : Fmt} {v : Scaled}
    (hlim : |valueQ v| < 2 ^ ((f.bias : ℤ) + 1))
    (hint : ∃ k : ℤ, |valueQ v| = k * 2 ^ (max (Int.log 2 |valueQ v|) (1 - (f.bias : ℤ)) - f.fracBits)) :
    nativeQ f.expBits f.fracBits f.bias (toIeee f v) = some (valueQ v) := by
  have hp : 0 < 2 ^ f.fracBits := by positivity
  have hbias := fmt_bias_pos f
  have htop := fmt_top f
  by_cases hv : v.num = 0
  · have h0 : toIeee f v = packIeee f false 0 0 := by rw [toIeee, if_pos hv, packIeee]; simp
    rw [h0, nativeQ_packIeee (by omega) hp, valueQ_eq_zero.mpr hv]; simp
  have hpos : 0 < |valueQ v| := abs_pos.mpr (by simpa using hv)
  obtain ⟨h0, h1, h2⟩ := significandQ_range hpos f.fracBits (1 - (f.bias : ℤ))
  rw [toIeee, if_neg hv]
  simp only [packSignificand, ieeeSignificand_eq hv]
  have hlog : |valueQ v| < 2 ^ (max (Int.log 2 |valueQ v|) (1 - (f.bias : ℤ)) + 1) := by
    have h1 := Int.lt_zpow_succ_log_self (b := 2) (by norm_num) |valueQ v|
    push_cast at h1
    exact h1.trans_le (zpow_le_zpow_right₀ (by norm_num) (by omega))
  have hEmax : max (Int.log 2 |valueQ v|) (1 - (f.bias : ℤ)) ≤ f.bias := by
    apply max_le _ (by omega)
    have := (Int.lt_zpow_iff_log_lt (b := 2) (x := (f.bias : ℤ) + 1) (by norm_num) hpos).mp (by exact_mod_cast hlim)
    omega
  generalize hE : max (Int.log 2 |valueQ v|) (1 - (f.bias : ℤ)) = E at *
  have hEmin : 1 - (f.bias : ℤ) ≤ E := hE ▸ le_max_right _ _
  obtain ⟨k, hk⟩ := hint
  have hz := two_zpow_pos (E - f.fracBits)
  have hN : |valueQ v| / 2 ^ (E - f.fracBits) = k := by rw [hk]; field_simp
  rw [hN, roundEvenQ_intCast] at h0 h1 h2
  rw [hN, roundEvenQ_intCast]
  clear hN
  obtain ⟨n, rfl⟩ := Int.eq_ofNat_of_zero_le h0
  have hne : ¬(n : ℤ) = 2 ^ (f.fracBits + 1) := by
    intro h
    rw [h] at hk
    rw [hk] at hlog
    push_cast at hlog
    rw [← zpow_natCast, ← zpow_add₀ (by norm_num)] at hlog
    have : ((f.fracBits + 1 : ℕ) : ℤ) + (E - f.fracBits) = E + 1 := by push_cast; ring
    rw [this] at hlog
    exact lt_irrefl _ hlog
  have h1' : (n : ℤ) ≤ 2 * 2 ^ f.fracBits := by rw [pow_succ] at h1; omega
  have h1'' : n < 2 * 2 ^ f.fracBits := by
    rw [pow_succ] at hne
    have : (n : ℤ) < 2 * 2 ^ f.fracBits := lt_of_le_of_ne h1' (by omega)
    exact_mod_cast this
  have hval : valueQ v = (if decide (v.num < 0) = true then -1 else 1) * |valueQ v| := by
    by_cases h : v.num < 0
    · simp [h, abs_of_neg (valueQ_neg_iff.mpr h)]
    · have : 0 ≤ valueQ v := not_lt.mp (fun hn => h (valueQ_neg_iff.mp hn))
      simp [h, abs_of_nonneg this]
  rw [if_neg hne]
  dsimp only
  rw [if_neg (by omega), Int.toNat_natCast]
  split_ifs with hs
  · have hEE : E = 1 - (f.bias : ℤ) := by
      by_contra hcon
      have := h2 (by omega)
      have : 2 ^ f.fracBits ≤ n := by exact_mod_cast this
      omega
    rw [nativeQ_packIeee (by omega) hs, if_pos rfl, hval, hk, hEE]
    simp
  · have hx : (E + (f.bias : ℤ)).toNat ≠ 0 := by omega
    rw [nativeQ_packIeee (by omega) (by omega), if_neg hx, hval, hk, Int.toNat_of_nonneg (by omega)]
    have : ((n - 2 ^ f.fracBits : ℕ) : ℚ) = n - 2 ^ f.fracBits := by push_cast [not_lt.mp hs]; rfl
    rw [this]
    congr 2
    have e : E + (f.bias : ℤ) - f.bias - f.fracBits = E - f.fracBits := by ring
    rw [e]
    push_cast
    ring

/-- A value of at most p + 1 bits whose lowest bit is not below the least subnormal is a multiple of its binade's
unit. -/
theorem multiple_of_unit {f : Fmt} {v : Scaled} (hv : v.num ≠ 0) (hn : v.num.natAbs < 2 ^ (f.fracBits + 1))
    (hp : 1 - (f.bias : ℤ) - f.fracBits ≤ v.pow) :
    ∃ k : ℤ, |valueQ v| = k * 2 ^ (max (Int.log 2 |valueQ v|) (1 - (f.bias : ℤ)) - f.fracBits) := by
  have hl : v.num.natAbs.log2 < f.fracBits + 1 := (Nat.log2_lt (Int.natAbs_ne_zero.mpr hv)).mpr hn
  have hle : max (Int.log 2 |valueQ v|) (1 - (f.bias : ℤ)) - f.fracBits ≤ v.pow := by
    rw [← floorLog2_eq_log hv, Scaled.floorLog2]; omega
  generalize max (Int.log 2 |valueQ v|) (1 - (f.bias : ℤ)) - (f.fracBits : ℤ) = u at *
  refine ⟨v.num.natAbs * 2 ^ (v.pow - u).toNat, ?_⟩
  rw [abs_valueQ]
  push_cast
  rw [mul_assoc, ← zpow_natCast, ← zpow_add₀ (by norm_num), Int.toNat_of_nonneg (by omega)]
  rw [sub_add_cancel, Nat.cast_natAbs, Int.cast_abs]

end Sys2Proof.Laws
end

