-- ==== Sys2Proof/Laws/Assembler.lean ====
section
/-!
SUPPORT. The exact value of a decimal literal and the native pattern it stands for (R76).
-/

namespace Sys2Proof.Laws

open Sys2Proof.Machine Sys2Proof.Safety

/-- The binade of a ratio, over ℚ. -/
theorem floorLog2Ratio_eq {n d : ℕ} (hn : n ≠ 0) (hd : d ≠ 0) : floorLog2Ratio n d = Int.log 2 ((n : ℚ) / d) := by
  have hn1 : ((2 ^ n.log2 : ℕ) : ℚ) ≤ n := by exact_mod_cast Nat.log2_self_le hn
  have hn2 : (n : ℚ) < ((2 ^ (n.log2 + 1) : ℕ) : ℚ) := by exact_mod_cast Nat.lt_log2_self
  have hd1 : ((2 ^ d.log2 : ℕ) : ℚ) ≤ d := by exact_mod_cast Nat.log2_self_le hd
  have hd2 : (d : ℚ) < ((2 ^ (d.log2 + 1) : ℕ) : ℚ) := by exact_mod_cast Nat.lt_log2_self
  have hdp : (0 : ℚ) < d := by exact_mod_cast Nat.pos_of_ne_zero hd
  have hnp : (0 : ℚ) < n := by exact_mod_cast Nat.pos_of_ne_zero hn
  have hq : 0 < (n : ℚ) / d := by positivity
  push_cast at hn1 hn2 hd1 hd2
  have key : ∀ k : ℤ, (2 : ℚ) ^ k * d ≤ n → (n : ℚ) < 2 ^ (k + 1) * d → k = Int.log 2 ((n : ℚ) / d) := by
    intro k h1 h2
    apply le_antisymm
    · exact (Int.zpow_le_iff_le_log (b := 2) (by norm_num) hq).mp (by push_cast; rwa [le_div_iff₀ hdp])
    · have := (Int.lt_zpow_iff_log_lt (b := 2) (x := k + 1) (by norm_num) hq).mp (by push_cast; rwa [div_lt_iff₀ hdp])
      omega
  simp only [floorLog2Ratio]
  generalize hk : (n.log2 : ℤ) - d.log2 = k
  have hcmp : (d * 2 ^ k.toNat ≤ n * 2 ^ (-k).toNat) ↔ (2 : ℚ) ^ k * d ≤ n := by
    rcases le_or_gt 0 k with h | h
    · rw [show (-k).toNat = 0 by omega, pow_zero, mul_one]
      obtain ⟨j, rfl⟩ := Int.eq_ofNat_of_zero_le h
      rw [Int.toNat_natCast, zpow_natCast, mul_comm]
      exact_mod_cast Iff.rfl
    · rw [show k.toNat = 0 by omega, pow_zero, mul_one]
      obtain ⟨j, hj⟩ := Int.eq_ofNat_of_zero_le (show 0 ≤ -k by omega)
      rw [hj, Int.toNat_natCast, show k = -(j : ℤ) by omega, zpow_neg, zpow_natCast, inv_mul_le_iff₀ (by positivity), mul_comm]
      exact_mod_cast Iff.rfl
  have hup : (n : ℚ) < 2 ^ (k + 1) * d := by
    calc (n : ℚ) < 2 ^ (n.log2 + 1) := hn2
      _ = 2 ^ (k + 1) * 2 ^ d.log2 := by rw [← zpow_natCast, ← zpow_natCast, ← zpow_add₀ (by norm_num)]; congr 1; push_cast; omega
      _ ≤ _ := by gcongr
  have hdown : (2 : ℚ) ^ (k - 1) * d ≤ n := by
    calc (2 : ℚ) ^ (k - 1) * d ≤ 2 ^ (k - 1) * 2 ^ (d.log2 + 1) := by gcongr
      _ = 2 ^ n.log2 := by rw [← zpow_natCast, ← zpow_natCast, ← zpow_add₀ (by norm_num)]; congr 1; push_cast; omega
      _ ≤ n := hn1
  split
  · next h => exact key k (hcmp.mp h) hup
  · next h => exact key (k - 1) hdown (by rw [sub_add_cancel]; exact not_le.mp (fun h' => h (hcmp.mpr h')))

/-- The nearest integer to n / d × 2^k, over ℚ. -/
theorem roundRatio_eq {n d : ℕ} (hd : 0 < d) (k : ℤ) : (roundRatio n d k : ℤ) = roundEvenQ ((n : ℚ) / d * 2 ^ k) := by
  unfold roundRatio
  split
  · next h =>
    obtain ⟨j, rfl⟩ := Int.eq_ofNat_of_zero_le h
    rw [divEven_eq hd, Int.toNat_natCast, zpow_natCast]
    push_cast
    congr 1
    ring
  · next h =>
    obtain ⟨j, hj⟩ := Int.eq_ofNat_of_zero_le (show 0 ≤ -k by omega)
    rw [hj, Int.toNat_natCast, divEven_eq (by positivity), show k = -(j : ℤ) by omega, zpow_neg, zpow_natCast]
    push_cast
    congr 1
    field_simp

/-- A literal's exact magnitude. -/
theorem decimal_magnitude (d : Decimal) : (d.numerator : ℚ) / d.denominator = d.digits * 10 ^ d.exponent := by
  simp only [Decimal.numerator, Decimal.denominator]
  push_cast
  rcases le_or_gt 0 d.exponent with h | h
  · rw [show (-d.exponent).toNat = 0 by omega, pow_zero, div_one]
    congr 1
    rw [← zpow_natCast, Int.toNat_of_nonneg h]
  · rw [show d.exponent.toNat = 0 by omega, pow_zero, mul_one, div_eq_mul_inv]
    congr 1
    rw [← zpow_natCast, Int.toNat_of_nonneg (by omega), ← zpow_neg, neg_neg]

/-- R76: a decimal literal's pattern is to_ieee of its exact value. -/
theorem nearest_eq (f : Fmt) (d : Decimal) :
    d.nearest f = BitVec.ofInt 64 (toNativeQ f.expBits f.fracBits f.bias
      ((if d.negative then -1 else 1) * d.digits * 10 ^ d.exponent)) := by
  by_cases h0 : d.digits = 0
  · rw [Decimal.nearest, if_pos h0, h0, toNativeQ, if_pos (by simp)]; rfl
  have hden : 0 < d.denominator := Nat.pow_pos (by norm_num)
  have hnum : d.numerator ≠ 0 := Nat.mul_ne_zero h0 (by positivity)
  have hpos : (0 : ℚ) < d.numerator / d.denominator := by
    have := Nat.pos_of_ne_zero hnum
    positivity
  rw [Decimal.nearest, if_neg h0, mul_assoc, ← decimal_magnitude]
  refine packSignificand_eq f _ hpos (by rw [floorLog2Ratio_eq hnum hden.ne']) ?_
  rw [roundRatio_eq hden]
  congr 1
  rw [div_eq_mul_inv _ ((2 : ℚ) ^ _), ← zpow_neg]
  congr 2
  ring

end Sys2Proof.Laws
end

