-- ==== Sys2Proof/Laws/State.lean ====
section
/-!
SUPPORT. One lemma per field per update of State, each true by rfl, so that no later proof unfolds a record update.
-/

namespace Sys2Proof.Laws

open Sys2Proof.Machine

@[simp] theorem answered_params (s : State) (r : Response) : (s.answered r).params = s.params := rfl
@[simp] theorem answered_request (s : State) (r : Response) : (s.answered r).request = s.request := rfl
@[simp] theorem answered_response (s : State) (r : Response) : (s.answered r).response = some r := rfl
@[simp] theorem answered_answered (s : State) (r r' : Response) : (s.answered r).answered r' = s.answered r' := rfl
@[simp] theorem drive_params (s : State) (rq : Request) : (s.drive rq).params = s.params := rfl
@[simp] theorem drive_request (s : State) (rq : Request) : (s.drive rq).request = some rq := rfl
@[simp] theorem drive_response (s : State) (rq : Request) : (s.drive rq).response = none := rfl
@[simp] theorem build_params (p : Params) : (State.build p).params = p := rfl
@[simp] theorem build_request (p : Params) : (State.build p).request = none := rfl
@[simp] theorem build_response (p : Params) : (State.build p).response = none := rfl
@[simp] theorem afterReset_eq (s : State) : s.afterReset = State.build s.params := rfl

theorem answered_eq (s : State) (r : Response) : s.answered r = { s with response := some r } := rfl

@[simp] theorem unanswered_answered (s : State) (r : Response) : (s.answered r).unanswered = false := by
  simp [State.unanswered]

@[simp] theorem unanswered_build (p : Params) : (State.build p).unanswered = false := rfl

theorem unanswered_iff {s : State} : s.unanswered = true ↔ ∃ held, s.request = some held ∧ s.response = none := by
  simp [State.unanswered, Option.isSome_iff_exists]

/-- Everything issuing can do: nothing while a request is unanswered, else the ports are driven. -/
theorem issue_unanswered {s : State} (h : s.unanswered = true) (rq : Request) : s.issue rq = none := if_pos h

theorem issue_ready {s : State} (h : s.unanswered = false) (rq : Request) : s.issue rq = some (s.drive rq) := by
  rw [State.issue, if_neg (by simp [h])]

theorem issue_cases {s u : State} {rq : Request} (h : s.issue rq = some u) : s.unanswered = false ∧ u = s.drive rq := by
  cases hb : s.unanswered with
  | true => rw [issue_unanswered hb] at h; cases h
  | false => rw [issue_ready hb] at h; cases h; exact ⟨rfl, rfl⟩

/-- Two states that agree on the parameters are driven alike: an earlier request and response leave nothing. -/
theorem drive_eq_of_params {s t : State} (h : s.params = t.params) (rq : Request) : s.drive rq = t.drive rq := by
  simp [State.drive, h]

@[simp] theorem status_answered (s : State) (r : Response) : (s.answered r).status = some r.status := rfl
@[simp] theorem result_answered (s : State) (r : Response) : (s.answered r).result = r.result := rfl

end Sys2Proof.Laws
end

