-- ==== Sys2Proof/Laws/Decoders.lean ====
section
/-!
SUPPORT. The exact values the decoders reconstruct, over ℚ (R151 to R153), and that the result fits its format (R63).
-/

namespace Sys2Proof.Laws

open Sys2Proof.Machine Sys2Proof.Safety

theorem valueQ_word16 (sg : Bool) (a : PortWord) :
    valueQ (word16Value sg a) =
      (if sg then ((a.extractLsb' 6 10).toInt : ℚ) else ((a.extractLsb' 6 10).toNat : ℚ)) *
        2 ^ ((a.extractLsb' 0 6).toInt - 9) := by
  cases sg <;> simp only [word16Value, valueQ, if_true, Bool.false_eq_true, if_false, Int.cast_natCast]

theorem valueQ_word32 (a : PortWord) :
    valueQ (word32Value a) = (a.extractLsb' 8 24).toInt * 2 ^ ((a.extractLsb' 0 8).toInt - 23) := rfl

theorem valueQ_word48 (sg : Bool) (a : PortWord) :
    valueQ (word48Value sg a) =
      if sg then
        ((a.extractLsb' 24 24 ++ a.extractLsb' 0 16).toInt : ℚ) * 2 ^ ((a.extractLsb' 16 8).toInt - 39)
      else
        ((a.extractLsb' 24 24).toNat : ℚ) * 2 ^ ((a.extractLsb' 16 8).toInt - 23) +
          ((a.extractLsb' 0 16).toNat : ℚ) * 2 ^ ((a.extractLsb' 16 8).toInt - 39) := by
  cases sg
  · simp only [word48Value, Bool.false_eq_true, if_false, valueQ_add]
    simp only [valueQ, Int.cast_natCast]
  · simp only [word48Value, if_true, valueQ]

/-- R153: the unsigned sum is one 40-bit mantissa at F = 39. -/
theorem word48Value_unsigned (a : PortWord) :
    word48Value false a =
      { num := ((a.extractLsb' 24 24 ++ a.extractLsb' 0 16).toNat : ℤ), pow := (a.extractLsb' 16 8).toInt - 39 } := by
  have h : ¬((a.extractLsb' 16 8).toInt - 23 ≤ (a.extractLsb' 16 8).toInt - 39) := by omega
  have h16 : ((a.extractLsb' 16 8).toInt - 23 - ((a.extractLsb' 16 8).toInt - 39)).toNat = 16 := by omega
  have hlo : (a.extractLsb' 0 16).toNat < 2 ^ 16 := BitVec.isLt _
  have happ : (a.extractLsb' 24 24 ++ a.extractLsb' 0 16).toNat
      = (a.extractLsb' 24 24).toNat * 2 ^ 16 + (a.extractLsb' 0 16).toNat := by
    rw [BitVec.toNat_append, ← Nat.shiftLeft_add_eq_or_of_lt hlo, Nat.shiftLeft_eq]
  simp only [word48Value, Bool.false_eq_true, if_false, Scaled.add, if_neg h, h16, happ]
  push_cast
  rfl

/-- R63: a native result leaves the bits of R above its format at 0. -/
theorem toIeee_shiftRight (f : Fmt) (v : Scaled) : toIeee f v >>> (f.signIndex + 1) = 0 := by
  rcases toIeee_cases f v with ⟨-, h⟩ | ⟨-, x, t, hx, ht, -, h⟩
  · rw [h]; simp
  · rw [h]; exact packIeee_shiftRight hx ht

end Sys2Proof.Laws
end

