-- ==== Sys2Proof/Laws/Encoders.lean ====
section
/-!
SUPPORT. What the encoder skeleton does: its mantissa and exponent over ℚ (R103 to R106), the fields of the packed
word (R107 to R110) and its response, case by case (R100).
-/

namespace Sys2Proof.Laws

open Sys2Proof.Machine Sys2Proof.Safety

/-! ### Mantissa and exponent -/

theorem roundedMantissa_eq (w : Width) (t : Ties) {x : Scaled} (hx : x.num ≠ 0) :
    roundedMantissa w t x = roundQ t (scaledQ w.fracBits (valueQ x)) := by
  rw [roundedMantissa, round_eq_roundQ, valueQ_scale, ceilLog2_eq_exponentQ hx, scaledQ]

theorem two_mul_halve {m : ℤ} (h : Even m) : 2 * halve m = m := by
  rw [halve, if_pos (Int.even_iff.mp h)]
  have := Int.even_iff.mp h
  omega

/-- R106. -/
theorem mantissaExponent_corrected (w : Width) (p : Params) {x : Scaled} (hx : x.num ≠ 0) :
    Corrected (w.boundary p) (roundQ p.ties (scaledQ w.fracBits (valueQ x))) (exponentQ (valueQ x))
      (mantissaExponent w p x).1 (mantissaExponent w p x).2 := by
  simp only [mantissaExponent, roundedMantissa_eq w _ hx, ceilLog2_eq_exponentQ hx]
  constructor
  · intro h; rw [if_neg h]; exact ⟨rfl, rfl⟩
  · intro h; rw [if_pos h]; exact ⟨rfl, fun he => two_mul_halve he⟩

theorem Corrected_exponent {b m0 e0 m e : ℤ} (h : Corrected b m0 e0 m e) : e = correctedExponent b m0 e0 := by
  unfold correctedExponent
  split
  · next hb => exact (h.2 hb).1
  · next hb => exact (h.1 hb).2

/-- The corrected pair stands for the same value m × 2^(e − F) as the rounded one. -/
theorem Corrected_value {b m0 e0 m e : ℤ} (h : Corrected b m0 e0 m e) (hb : Even b) (f : ℤ) :
    (m : ℚ) * 2 ^ (e - f) = m0 * 2 ^ (e0 - f) := by
  by_cases hm : m0 = b
  · obtain ⟨rfl, h2⟩ := h.2 hm
    have h3 : (2 : ℚ) * m = m0 := by exact_mod_cast h2 (hm ▸ hb)
    rw [← h3, show e0 + 1 - f = e0 - f + 1 by ring, zpow_add₀ (by norm_num), zpow_one]
    ring
  · obtain ⟨rfl, rfl⟩ := h.1 hm
    rfl

/-- The mantissa fits its two's-complement field once the boundary is 2^F (R105, R106). -/
theorem Corrected_range {f : ℕ} (hf : 1 ≤ f) {m0 e0 m e : ℤ} (h : Corrected (2 ^ f) m0 e0 m e)
    (hlo : 2 ^ (f - 1) ≤ |m0|) (hhi : |m0| ≤ 2 ^ f) :
    -2 ^ f ≤ m ∧ m < 2 ^ f ∧ (m0 < 0 → m < 0) ∧ (0 < m0 → 0 < m) := by
  have hev : Even ((2 : ℤ) ^ f) := even_two.pow_of_ne_zero (by omega)
  have hp : (0 : ℤ) < 2 ^ (f - 1) := by positivity
  have hpf : (2 : ℤ) ^ f = 2 * 2 ^ (f - 1) := by
    rw [← pow_succ']
    congr 1
    omega
  rw [abs_le] at hhi
  by_cases hm : m0 = 2 ^ f
  · have := (h.2 hm).2 (hm ▸ hev)
    refine ⟨by omega, by omega, fun _ => by omega, fun _ => by omega⟩
  · obtain ⟨rfl, rfl⟩ := h.1 hm
    exact ⟨hhi.1, lt_of_le_of_ne hhi.2 hm, id, id⟩

/-! ### Packed words -/

theorem pack16_eq (m e : ℤ) : pack16 m e = BitVec.ofInt 10 m ++ BitVec.ofInt 6 e := by
  rw [pack16]
  generalize BitVec.ofInt 10 m = x
  generalize BitVec.ofInt 6 e = y
  apply BitVec.eq_of_getLsbD_eq
  intro i hi
  simp only [BitVec.getLsbD_or, BitVec.getLsbD_shiftLeft, BitVec.getLsbD_setWidth, BitVec.getLsbD_append, hi]
  by_cases h : i < 6
  · simp [h]; try omega
  · simp [h, BitVec.getLsbD_of_ge y i (by omega)]; try omega

theorem pack32_eq (m e : ℤ) (s : Bool) :
    pack32 m e s = BitVec.ofInt 24 m ++ BitVec.ofInt 8 e ||| BitVec.ofBool s ++ 0#31 := by
  rw [pack32]
  generalize BitVec.ofInt 24 m = x
  generalize BitVec.ofInt 8 e = y
  apply BitVec.eq_of_getLsbD_eq
  intro i hi
  simp only [BitVec.getLsbD_or, BitVec.getLsbD_shiftLeft, BitVec.getLsbD_setWidth, BitVec.getLsbD_append, hi]
  by_cases h : i < 8
  · have : i < 31 := by omega
    simp [h, this]
  · by_cases h' : i < 31
    · simp [h, h', BitVec.getLsbD_of_ge y i (by omega)]; try omega
    · obtain rfl : i = 31 := by omega
      simp

theorem pack48_eq (m e : ℤ) (s : Bool) :
    pack48 m e s = (BitVec.ofInt 40 m).extractLsb' 16 24 ++ BitVec.ofInt 8 e ++ (BitVec.ofInt 40 m).extractLsb' 0 16
      ||| BitVec.ofBool s ++ 0#47 := by
  rw [pack48]
  generalize (BitVec.ofInt 40 m).extractLsb' 16 24 = x
  generalize (BitVec.ofInt 40 m).extractLsb' 0 16 = z
  generalize BitVec.ofInt 8 e = y
  apply BitVec.eq_of_getLsbD_eq
  intro i hi
  simp only [BitVec.getLsbD_or, BitVec.getLsbD_shiftLeft, BitVec.getLsbD_setWidth, BitVec.getLsbD_append, hi]
  by_cases h1 : i < 16
  · have a : i < 24 := by omega
    have b : i < 47 := by omega
    simp [h1, a, b]
  · by_cases h2 : i < 24
    · have b : i < 47 := by omega
      have c : i - 16 < 8 := by omega
      simp [h1, h2, b, c, BitVec.getLsbD_of_ge z i (by omega)]; try omega
    · have c : ¬i - 16 < 8 := by omega
      have d : i - 16 - 8 = i - 24 := by omega
      by_cases h3 : i < 47
      · simp [h1, h2, h3, c, d, BitVec.getLsbD_of_ge z i (by omega), BitVec.getLsbD_of_ge y (i - 16) (by omega)]
        try omega
      · obtain rfl : i = 47 := by omega
        simp

/-! ### Fields of a packed word -/

theorem bitVec_ofInt_msb {w : ℕ} {m : ℤ} (hlo : -2 ^ w ≤ m) (hneg : m < 0) : (BitVec.ofInt (w + 1) m).msb = true := by
  rw [BitVec.msb_eq_toInt, BitVec.toInt_ofInt_eq_self (by omega) (by simpa using hlo)]
  · simpa using hneg
  · have : (0 : ℤ) < 2 ^ (w + 1 - 1) := by positivity
    omega

/-- R111: ORing the sign into bit 31 changes nothing where the mantissa's top bit is 1. -/
theorem pack32_sign {m e : ℤ} {s : Bool} (h : s = true → (BitVec.ofInt 24 m).msb = true) :
    pack32 m e s = BitVec.ofInt 24 m ++ BitVec.ofInt 8 e := by
  rw [pack32_eq]
  cases s with
  | false => simp
  | true =>
    have hm := h rfl
    generalize BitVec.ofInt 24 m = x at *
    generalize BitVec.ofInt 8 e = y
    rw [BitVec.msb_eq_getLsbD_last] at hm
    apply BitVec.eq_of_getLsbD_eq
    intro i hi
    simp only [BitVec.getLsbD_or, BitVec.getLsbD_append]
    by_cases h31 : i = 31
    · subst h31; simp [hm]
    · have : i < 31 := by omega
      simp [this]

/-- R111: the same for bit 47. -/
theorem pack48_sign {m e : ℤ} {s : Bool} (h : s = true → (BitVec.ofInt 40 m).msb = true) :
    pack48 m e s =
      (BitVec.ofInt 40 m).extractLsb' 16 24 ++ BitVec.ofInt 8 e ++ (BitVec.ofInt 40 m).extractLsb' 0 16 := by
  rw [pack48_eq]
  cases s with
  | false => simp
  | true =>
    have hm := h rfl
    generalize BitVec.ofInt 40 m = x at *
    generalize BitVec.ofInt 8 e = y
    rw [BitVec.msb_eq_getLsbD_last] at hm
    apply BitVec.eq_of_getLsbD_eq
    intro i hi
    simp only [BitVec.getLsbD_or, BitVec.getLsbD_append]
    by_cases h47 : i = 47
    · subst h47; simp [hm]
    · have : i < 47 := by omega
      simp [this]

theorem fields_of_append {n k : ℕ} (hk : n + k ≤ 64) (x : BitVec n) (y : BitVec k) :
    ((x ++ y).setWidth 64).extractLsb' k n = x ∧ ((x ++ y).setWidth 64).extractLsb' 0 k = y ∧
    (x ++ y).setWidth 64 >>> (n + k) = 0 := by
  refine ⟨?_, ?_, ?_⟩ <;> apply BitVec.eq_of_getLsbD_eq <;> intro i hi <;>
    simp only [BitVec.getLsbD_ushiftRight, BitVec.getLsbD_extractLsb', BitVec.getLsbD_setWidth, BitVec.getLsbD_append]
  · have h1 : k + i < 64 := by omega
    simp [h1, hi]
  · have h1 : i < 64 := by omega
    simp [h1, hi]
  · have h1 : ¬n + k + i < k := by omega
    have h2 : n ≤ n + k + i - k := by omega
    simp [h1, BitVec.getLsbD_of_ge x _ h2]

theorem fields_of_append48 (x : BitVec 40) (y : BitVec 8) :
    let r := (x.extractLsb' 16 24 ++ y ++ x.extractLsb' 0 16).setWidth 64
    (r.extractLsb' 24 24 ++ r.extractLsb' 0 16 : BitVec 40) = x ∧ r.extractLsb' 16 8 = y ∧ r >>> 48 = 0 := by
  refine ⟨?_, ?_, ?_⟩ <;> apply BitVec.eq_of_getLsbD_eq <;> intro i hi
  · simp only [BitVec.getLsbD_append, BitVec.getLsbD_extractLsb', BitVec.getLsbD_setWidth]
    by_cases h : i < 16
    · have h1 : i < 64 := by omega
      simp [h, h1]
    · have h1 : 24 + (i - 16) < 64 := by omega
      have h2 : i - 16 < 24 := by omega
      have h3 : ¬24 + (i - 16) < 16 := by omega
      have h4 : ¬24 + (i - 16) - 16 < 8 := by omega
      have h5 : 24 + (i - 16) - 16 - 8 < 24 := by omega
      have h6 : 16 + (24 + (i - 16) - 16 - 8) = i := by omega
      simp [h, h1, h2, h3, h4, h5, h6]
  · simp only [BitVec.getLsbD_append, BitVec.getLsbD_extractLsb', BitVec.getLsbD_setWidth]
    have h1 : 16 + i < 64 := by omega
    simp [h1, hi]
  · simp only [BitVec.getLsbD_ushiftRight, BitVec.getLsbD_append, BitVec.getLsbD_extractLsb', BitVec.getLsbD_setWidth]
    have h1 : ¬48 + i < 16 := by omega
    have h2 : ¬48 + i - 16 < 8 := by omega
    have h3 : ¬48 + i - 16 - 8 < 24 := by omega
    simp [h1, h2, h3]

/-! ### The response -/

theorem encodeResponse_nonFinite {w : Width} {p : Params} {b : PortWord}
    (h : nativeQ w.fmt.expBits w.fmt.fracBits w.fmt.bias b = none) :
    encodeResponse w p b = .raised .nonFiniteInput := by
  rw [nativeQ_eq] at h
  rw [encodeResponse]
  cases hv : ieeeValue w.fmt b with
  | nan => rfl
  | inf s => rfl
  | finite x => rw [hv] at h; cases h

theorem encodeResponse_finite {w : Width} {p : Params} {b : PortWord} {q : ℚ}
    (h : nativeQ w.fmt.expBits w.fmt.fracBits w.fmt.bias b = some q) :
    ∃ x, ieeeValue w.fmt b = .finite x ∧ valueQ x = q ∧
      encodeResponse w p b = .ok (encodeFinite w p x (signBit w.fmt b)) := by
  obtain ⟨x, hx, hv⟩ := finite_of_nativeQ h
  exact ⟨x, hx, hv, by rw [encodeResponse, hx]⟩

/-- R102: the all-zero word. -/
theorem encodeResponse_zero {w : Width} {p : Params} {b : PortWord}
    (h : nativeQ w.fmt.expBits w.fmt.fracBits w.fmt.bias b = some 0) : encodeResponse w p b = .ok 0 := by
  obtain ⟨x, -, hv, hr⟩ := encodeResponse_finite (p := p) h
  rw [hr, encodeFinite, if_pos (valueQ_eq_zero.mp hv)]

/-- R100: the packed mantissa and exponent of a nonzero input. -/
theorem encodeResponse_nonzero {w : Width} {p : Params} {b : PortWord} {q : ℚ}
    (h : nativeQ w.fmt.expBits w.fmt.fracBits w.fmt.bias b = some q) (hq : q ≠ 0) :
    ∃ m e, Corrected (w.boundary p) (roundQ p.ties (scaledQ w.fracBits q)) (exponentQ q) m e ∧
      encodeResponse w p b = .ok (packWord w m e (signBit w.fmt b)) := by
  obtain ⟨x, -, rfl, hr⟩ := encodeResponse_finite (p := p) h
  have hx : x.num ≠ 0 := fun h0 => hq (valueQ_eq_zero.mpr h0)
  exact ⟨_, _, mantissaExponent_corrected w p hx, by rw [hr, encodeFinite, if_neg hx]⟩

/-- What is known of the pair packed for a nonzero input: R105 and R106 over ℚ. -/
theorem Corrected_facts {f : ℕ} (hf : 1 ≤ f) {t : Ties} {x : ℚ} (hx : x ≠ 0) {m e : ℤ}
    (h : Corrected (2 ^ f) (roundQ t (scaledQ f x)) (exponentQ x) m e) :
    -2 ^ f ≤ m ∧ m < 2 ^ f ∧ (x < 0 → m < 0) ∧ (0 < x → 0 < m) ∧
    (m : ℚ) * 2 ^ (e - f) = roundQ t (scaledQ f x) * 2 ^ (exponentQ x - f) := by
  obtain ⟨h1, h2, -⟩ := roundQ_scaledQ_range hx t f hf
  obtain ⟨r1, r2, r3, r4⟩ := Corrected_range hf h h1 h2
  have hp := two_zpow_pos (f - exponentQ x)
  have hp2 : (0 : ℤ) < 2 ^ (f - 1) := by positivity
  refine ⟨r1, r2, fun hneg => r3 ?_, fun hpos => r4 ?_, Corrected_value h (even_two.pow_of_ne_zero (by omega)) f⟩
  · have : roundQ t (scaledQ f x) ≤ 0 := roundQ_le (by rw [Int.cast_zero]; exact (mul_neg_of_neg_of_pos hneg hp).le)
    rcases this.eq_or_lt with h0 | h0
    · rw [h0] at h1; simp at h1; omega
    · exact h0
  · have : 0 ≤ roundQ t (scaledQ f x) := le_roundQ (by rw [Int.cast_zero]; exact (mul_pos hpos hp).le)
    rcases this.eq_or_lt with h0 | h0
    · rw [← h0] at h1; simp at h1; omega
    · exact h0

theorem signBit_nonzero {f : Fmt} {b : PortWord} {q : ℚ}
    (h : nativeQ f.expBits f.fracBits f.bias b = some q) (hq : q ≠ 0) : signBit f b = decide (q < 0) := by
  obtain ⟨x, hx, rfl⟩ := finite_of_nativeQ h
  rw [signBit_eq hx (fun h0 => hq (valueQ_eq_zero.mpr h0))]
  simp only [valueQ_neg_iff]

/-- ENC16's word, by its fields (R64). -/
theorem encode16_fields {p : Params} {b : PortWord} {q : ℚ} (h : nativeQ 5 10 15 b = some q) (hq : q ≠ 0) :
    ∃ r m e, Corrected p.enc16Boundary (roundQ p.ties (scaledQ 9 q)) (exponentQ q) m e ∧
      encodeResponse .w16 p b = .ok r ∧ r.extractLsb' 6 10 = BitVec.ofInt 10 m ∧
      r.extractLsb' 0 6 = BitVec.ofInt 6 e ∧ r >>> 16 = 0 := by
  obtain ⟨m, e, hc, hr⟩ := encodeResponse_nonzero (w := .w16) (p := p) h hq
  rw [packWord, pack16_eq] at hr
  obtain ⟨h1, h2, h3⟩ := fields_of_append (by norm_num) (BitVec.ofInt 10 m) (BitVec.ofInt 6 e)
  exact ⟨_, m, e, hc, hr, h1, h2, h3⟩

/-- ENC32's word, by its fields (R65), with no separate sign bit (R111). -/
theorem encode32_fields {p : Params} {b : PortWord} {q : ℚ} (h : nativeQ 8 23 127 b = some q) (hq : q ≠ 0) :
    ∃ r m e, Corrected (2 ^ 23) (roundQ p.ties (scaledQ 23 q)) (exponentQ q) m e ∧
      encodeResponse .w32 p b = .ok r ∧ r.extractLsb' 8 24 = BitVec.ofInt 24 m ∧
      r.extractLsb' 0 8 = BitVec.ofInt 8 e ∧ r >>> 32 = 0 := by
  obtain ⟨m, e, hc, hr⟩ := encodeResponse_nonzero (w := .w32) (p := p) h hq
  obtain ⟨r1, r2, r3, r4, -⟩ := Corrected_facts (f := 23) (by norm_num) hq hc
  rw [packWord, pack32_sign] at hr
  · obtain ⟨h1, h2, h3⟩ := fields_of_append (by norm_num) (BitVec.ofInt 24 m) (BitVec.ofInt 8 e)
    exact ⟨_, m, e, hc, hr, h1, h2, h3⟩
  · rw [show signBit Width.w32.fmt b = _ from signBit_nonzero (f := .binary32) h hq]
    intro hs
    exact bitVec_ofInt_msb (w := 23) r1 (r3 (by simpa using hs))

/-- ENC48's word, by its fields (R66), with no separate sign bit (R111). -/
theorem encode48_fields {p : Params} {b : PortWord} {q : ℚ} (h : nativeQ 11 52 1023 b = some q) (hq : q ≠ 0) :
    ∃ r m e, Corrected (2 ^ 39) (roundQ p.ties (scaledQ 39 q)) (exponentQ q) m e ∧
      encodeResponse .w48 p b = .ok r ∧
      (r.extractLsb' 24 24 ++ r.extractLsb' 0 16 : BitVec 40) = BitVec.ofInt 40 m ∧
      r.extractLsb' 16 8 = BitVec.ofInt 8 e ∧ r >>> 48 = 0 := by
  obtain ⟨m, e, hc, hr⟩ := encodeResponse_nonzero (w := .w48) (p := p) h hq
  obtain ⟨r1, r2, r3, r4, -⟩ := Corrected_facts (f := 39) (by norm_num) hq hc
  rw [packWord, pack48_sign] at hr
  · obtain ⟨h1, h2, h3⟩ := fields_of_append48 (BitVec.ofInt 40 m) (BitVec.ofInt 8 e)
    exact ⟨_, m, e, hc, hr, h1, h2, h3⟩
  · rw [show signBit Width.w48.fmt b = _ from signBit_nonzero (f := .binary64) h hq]
    intro hs
    exact bitVec_ofInt_msb (w := 39) r1 (r3 (by simpa using hs))

end Sys2Proof.Laws
end

