-- ==== Sys2Proof/Laws/PerInstr.lean ====
section
/-!
SUPPORT. The family RowMatch of LAWS.json: a well-formed operation's request word matches its row of
spec/opcode_table.json, whose mask and match are written out here from the table.
-/

namespace Sys2Proof.Laws.RowMatch

/-- The mask and the match of each row of spec/opcode_table.json. -/
def row : Instr → RequestWord × RequestWord
  | .enc16 _ => (0x7FFFFFFFFFFFF0000#67, 0x00000000000000000#67)
  | .enc32 _ => (0x7FFFFFFFF00000000#67, 0x10000000000000000#67)
  | .enc48 _ => (0x70000000000000000#67, 0x20000000000000000#67)
  | .dec16 _ => (0x7FFFFFFFFFFFF0000#67, 0x40000000000000000#67)
  | .dec32 _ => (0x7FFFFFFFF00000000#67, 0x50000000000000000#67)
  | .dec48 _ => (0x7FFFF000000000000#67, 0x60000000000000000#67)

/-- The word of i matches the row of i. -/
def Statement (i : Instr) : Prop := i.wellFormed = true → encode i &&& (row i).1 = (row i).2

/-- OP above an operand that fits in n bits, under a mask of every bit but those n. -/
theorem masked_word {n : ℕ} (hn : n ≤ 64) (op : OpCode) {a : PortWord} (ha : a >>> n = 0) :
    (op ++ a : RequestWord) &&& ~~~(BitVec.ofNat 67 (2 ^ n - 1)) = op ++ (0 : PortWord) := by
  have hbit : ∀ k, n ≤ k → a.getLsbD k = false := by
    intro k hk
    have : (a >>> n).getLsbD (k - n) = a.getLsbD k := by rw [BitVec.getLsbD_ushiftRight]; congr 1; omega
    rw [← this, ha]
    simp
  apply BitVec.eq_of_getLsbD_eq
  intro i hi
  have hm : (BitVec.ofNat 67 (2 ^ n - 1)).getLsbD i = decide (i < n) := by
    rw [BitVec.getLsbD_ofNat, Nat.testBit_two_pow_sub_one]
    simp [hi]
  rw [BitVec.getLsbD_and, BitVec.getLsbD_not, hm, BitVec.getLsbD_append, BitVec.getLsbD_append]
  by_cases h64 : i < 64
  · by_cases h : i < n
    · simp [h64, h]
    · rw [if_pos h64, if_pos h64, hbit i (by omega)]; simp
  · have h : ¬i < n := by omega
    simp [h64, h, hi]

theorem enc16 (a : PortWord) : Statement (.enc16 a) := fun h =>
  masked_word (n := 16) (by decide) 0b000#3 (by simpa [Instr.wellFormed, Instr.operand, Instr.operandBits] using h)

theorem enc32 (a : PortWord) : Statement (.enc32 a) := fun h =>
  masked_word (n := 32) (by decide) 0b001#3 (by simpa [Instr.wellFormed, Instr.operand, Instr.operandBits] using h)

theorem enc48 (a : PortWord) : Statement (.enc48 a) := fun h =>
  masked_word (n := 64) (by decide) 0b010#3 (by simpa [Instr.wellFormed, Instr.operand, Instr.operandBits] using h)

theorem dec16 (a : PortWord) : Statement (.dec16 a) := fun h =>
  masked_word (n := 16) (by decide) 0b100#3 (by simpa [Instr.wellFormed, Instr.operand, Instr.operandBits] using h)

theorem dec32 (a : PortWord) : Statement (.dec32 a) := fun h =>
  masked_word (n := 32) (by decide) 0b101#3 (by simpa [Instr.wellFormed, Instr.operand, Instr.operandBits] using h)

theorem dec48 (a : PortWord) : Statement (.dec48 a) := fun h =>
  masked_word (n := 48) (by decide) 0b110#3 (by simpa [Instr.wellFormed, Instr.operand, Instr.operandBits] using h)

end Sys2Proof.Laws.RowMatch
end

