-- ==== Sys2Proof/Laws/Step.lean ====
section
/-!
SUPPORT. The one inversion of exec and of step: each answers its request, and what it answers is a function of the
parameters and the request. The provers cite these instead of unfolding the machine.
-/

namespace Sys2Proof.Laws

open Sys2Proof.Machine

/-- What each operation answers. -/
def respond (p : Params) : Instr → Response
  | .enc16 a => guardOperand 16 a (encodeResponse .w16 p a)
  | .enc32 a => guardOperand 32 a (encodeResponse .w32 p a)
  | .enc48 a => encodeResponse .w48 p a
  | .dec16 a => guardOperand 16 a (.ok (toIeee .binary16 (word16Value p.dec16Signed a)))
  | .dec32 a => guardOperand 32 a (.ok (toIeee .binary32 (word32Value a)))
  | .dec48 a => guardOperand 48 a (.ok (toIeee .binary64 (word48Value p.dec48Signed a)))

/-- What a request is answered. -/
def respondTo (p : Params) (rq : Request) : Response :=
  match decode rq.word with
  | .instr i => respond p i
  | .reservedOp _ => .raised .illegalOperation

theorem exec_eq (i : Instr) (s : State) : exec i s = .next (s.answered (respond s.params i)) := by
  cases i <;> rfl

/-- What an operation answers on two blocks that differ in P_TIES alone. -/
theorem answersUnderTies (i : Instr) (s : State) :
    Safety.AnswersUnderTies i s (respond { s.params with ties := .away } i) (respond { s.params with ties := .even } i) :=
  ⟨exec_eq i _, exec_eq i _⟩

/-- R62, R73: the operand-width check, decided by the bits of A above the operand. -/
theorem guardOperand_wide {n : ℕ} {a : PortWord} (h : a >>> n ≠ 0) (r : Response) :
    guardOperand n a r = .raised .illegalOperand := by
  have hw : wideOperand n a = true := by simpa [wideOperand] using h
  rw [guardOperand, if_pos hw]

theorem guardOperand_narrow {n : ℕ} {a : PortWord} (h : a >>> n = 0) (r : Response) : guardOperand n a r = r := by
  simp [guardOperand, wideOperand, h]

@[simp] theorem operandField_word (rq : Request) : operandField rq.word = rq.a := by
  rw [operandField, Request.word]
  apply BitVec.eq_of_getLsbD_eq
  intro i hi
  have h := BitVec.getLsbD_append (x := rq.op) (y := rq.a) (i := 0 + i)
  rw [BitVec.getLsbD_extractLsb', decide_eq_true hi, Bool.true_and]
  exact h.trans (by simp [hi])

@[simp] theorem opField_word (rq : Request) : opField rq.word = rq.op := by
  rw [opField, Request.word]
  apply BitVec.eq_of_getLsbD_eq
  intro i hi
  have h := BitVec.getLsbD_append (x := rq.op) (y := rq.a) (i := 64 + i)
  rw [BitVec.getLsbD_extractLsb', decide_eq_true hi, Bool.true_and]
  exact h.trans (by simp)

@[simp] theorem ofWord_word (rq : Request) : Request.ofWord rq.word = rq := by
  have h1 := operandField_word rq
  have h2 := opField_word rq
  simp only [operandField, opField] at h1 h2
  simp only [Request.ofWord, h1, h2]

/-- R61's table, on the fields of a request. -/
theorem decode_word (rq : Request) :
    decode rq.word =
      match rq.op.toNat with
      | 0b000 => .instr (.enc16 rq.a)
      | 0b001 => .instr (.enc32 rq.a)
      | 0b010 => .instr (.enc48 rq.a)
      | 0b100 => .instr (.dec16 rq.a)
      | 0b101 => .instr (.dec32 rq.a)
      | 0b110 => .instr (.dec48 rq.a)
      | _ => .reservedOp rq.op := by
  have ha := operandField_word rq
  have hop := opField_word rq
  unfold decode
  generalize operandField rq.word = a at ha ⊢
  generalize opField rq.word = op at hop ⊢
  subst ha hop
  rfl

/-- Everything a step can do: nothing where there is no request, else one response. -/
theorem step_none {s : State} (h : s.request = none) : step s = .next s := by
  simp [step, State.fetch, h]

theorem step_some {s : State} {rq : Request} (h : s.request = some rq) :
    step s = .next (s.answered (respondTo s.params rq)) := by
  simp only [step, State.fetch, h, Option.map_some, respondTo]
  cases hd : decode rq.word with
  | instr i => exact exec_eq i s
  | reservedOp op => rfl

theorem step_drive (s : State) (rq : Request) :
    step (s.drive rq) = .next ((s.drive rq).answered (respondTo s.params rq)) := step_some rfl

theorem step_cases {s t : State} (h : step s = .next t) :
    (s.request = none ∧ t = s) ∨ ∃ rq, s.request = some rq ∧ t = s.answered (respondTo s.params rq) := by
  cases hr : s.request with
  | none => rw [step_none hr] at h; cases h; exact .inl ⟨rfl, rfl⟩
  | some rq => rw [step_some hr] at h; cases h; exact .inr ⟨rq, rfl, rfl⟩

/-- After every step the host may issue: R237's rule holds it back only until the response. -/
theorem step_ready {s t : State} (h : step s = .next t) : t.unanswered = false := by
  rcases step_cases h with ⟨hr, rfl⟩ | ⟨rq, -, rfl⟩
  · simp [State.unanswered, hr]
  · exact unanswered_answered s _

theorem responseTo_eq {s : State} (h : s.unanswered = false) (rq : Request) :
    s.responseTo rq = some (respondTo s.params rq) := by
  simp [State.responseTo, issue_ready h, step_drive]

@[simp] theorem serve_nil (s : State) : s.serve [] = [] := by rw [State.serve]

theorem serve_cons {s : State} (h : s.unanswered = false) (rq : Request) (rqs : List Request) :
    s.serve (rq :: rqs) =
      some (respondTo s.params rq) :: ((s.drive rq).answered (respondTo s.params rq)).serve rqs := by
  simp only [State.serve, issue_ready h, step_drive]
  rfl

end Sys2Proof.Laws
end

