-- ==== Sys2Proof/Laws/Platform.lean ====
section
/-!
SUPPORT. What a platform's operations do: one lemma per field of the update, and the one inversion of issueAt and of
stepAt.
-/

namespace Sys2Proof.Laws

open Sys2Proof.Machine

theorem platform_ext {pf qf : Platform} (h : pf.instances = qf.instances) : pf = qf := by
  cases pf; cases qf; cases h; rfl

@[simp] theorem setAt_instances (pf : Platform) (k : ℕ) (t : State) :
    (pf.setAt k t).instances = pf.instances.set k t := rfl

@[simp] theorem setAt_nInstances (pf : Platform) (k : ℕ) (t : State) : (pf.setAt k t).nInstances = pf.nInstances :=
  List.length_set

theorem setAt_other (pf : Platform) (t : State) {j k : ℕ} (h : j ≠ k) :
    (pf.setAt k t).instances[j]? = pf.instances[j]? := List.getElem?_set_ne h.symm

theorem setAt_self {pf : Platform} {k : ℕ} {s : State} (h : pf.instances[k]? = some s) (t : State) :
    (pf.setAt k t).instances[k]? = some t := by
  have : k < pf.instances.length := (List.getElem?_eq_some_iff.mp h).1
  simp [this]

theorem setAt_comm (pf : Platform) (s t : State) {j k : ℕ} (h : j ≠ k) :
    (pf.setAt j s).setAt k t = (pf.setAt k t).setAt j s := platform_ext (List.set_comm s t h)

@[simp] theorem build_instances (n : ℕ) (hn : 1 ≤ n) (p : Params) :
    (Platform.build n hn p).instances = List.replicate n (State.build p) := rfl

theorem issueAt_some {pf : Platform} {k : ℕ} {s : State} (h : pf.instances[k]? = some s) (rq : Request) :
    pf.issueAt k rq = (s.issue rq).map (pf.setAt k) := by simp [Platform.issueAt, h]

theorem stepAt_none {pf : Platform} {k : ℕ} (h : pf.instances[k]? = none) : pf.stepAt k = .next pf := by
  simp [Platform.stepAt, h]

theorem stepAt_some {pf : Platform} {k : ℕ} {s t : State} (h : pf.instances[k]? = some s) (hs : step s = .next t) :
    pf.stepAt k = .next (pf.setAt k t) := by simp [Platform.stepAt, h, hs]

/-- Everything a step of copy k can do. -/
theorem stepAt_cases {pf qf : Platform} {k : ℕ} (h : pf.stepAt k = .next qf) :
    (pf.instances[k]? = none ∧ qf = pf) ∨
    ∃ s t, pf.instances[k]? = some s ∧ step s = .next t ∧ qf = pf.setAt k t := by
  unfold Platform.stepAt at h
  cases hk : pf.instances[k]? with
  | none => rw [hk] at h; cases h; exact .inl ⟨rfl, rfl⟩
  | some s =>
    rw [hk] at h
    cases hs : step s with
    | next t => simp only [hs] at h; cases h; exact .inr ⟨s, t, rfl, hs, rfl⟩
    | fault r => simp only [hs] at h; cases h
    | refused r => simp only [hs] at h; cases h

end Sys2Proof.Laws
end

