-- ==== Sys2Proof/Tests/Slice0.lean ====
section
/-!
SUPPORT. The model's own tests: well-formedness, decoding of words written out from R60 and R61, one step on operands
whose results spec/95_test_vectors.md gives, and a witness that meets the hypotheses of each statement of
Certificates/Slice0/Obligations.lean.
-/

namespace Sys2Proof.Tests

open Sys2Proof.Machine Sys2Proof.Safety Sys2Proof.Laws

/-! ### WellFormed: one ill-formed term for each required-zero row of R62, and the widest well-formed ones -/

theorem test_enc16_ill_formed : (Instr.enc16 0x10000#64).wellFormed = false := by decide
theorem test_enc32_ill_formed : (Instr.enc32 0x100000000#64).wellFormed = false := by decide
theorem test_dec16_ill_formed : (Instr.dec16 0x8000000000000000#64).wellFormed = false := by decide
theorem test_dec32_ill_formed : (Instr.dec32 0x100000000#64).wellFormed = false := by decide
theorem test_dec48_ill_formed : (Instr.dec48 0x1000000000000#64).wellFormed = false := by decide
theorem test_widest_well_formed :
    (Instr.enc16 0xFFFF#64).wellFormed && (Instr.enc32 0xFFFFFFFF#64).wellFormed &&
    (Instr.enc48 0xFFFFFFFFFFFFFFFF#64).wellFormed && (Instr.dec16 0xFFFF#64).wellFormed &&
    (Instr.dec32 0xFFFFFFFF#64).wellFormed && (Instr.dec48 0xFFFFFFFFFFFF#64).wellFormed = true := by decide

/-! ### Decode: OP in bits 66:64, A in bits 63:0 (R60, R61), bit by bit -/

theorem test_decode_enc16 :
    decode 0b0000000000000000000000000000000000000000000000000000100101000110011#67 =
      .instr (.enc16 0x4A33#64) := by decide

theorem test_decode_enc32 :
    decode 0b0010000000000000000000000000000000001000000101001110111110011101110#67 =
      .instr (.enc32 0x40A77CEE#64) := by decide

theorem test_decode_enc48 :
    decode 0b0100100000001011010011010001110110101010101001010101010111010001011#67 =
      .instr (.enc48 0x405A68ED552AAE8B#64) := by decide

theorem test_decode_dec16 :
    decode 0b1000000000000000000000000000000000000000000000000001001110011000100#67 =
      .instr (.dec16 0x9CC4#64) := by decide

theorem test_decode_dec32 :
    decode 0b1010000000000000000000000000000000010011001011110101110000100000101#67 =
      .instr (.dec32 0x997AE105#64) := by decide

theorem test_decode_dec48 :
    decode 0b1100000000000000000011010011010001110110101000001110101010010101011#67 =
      .instr (.dec48 0x69A3B50754AB#64) := by decide

theorem test_decode_reserved_3 :
    decode 0b0110000000000000000000000000000000000000000000000000100101000110011#67 =
      .reservedOp 0b011#3 := by decide

theorem test_decode_reserved_7 :
    decode 0b1111111111111111111111111111111111111111111111111111111111111111111#67 =
      .reservedOp 0b111#3 := by decide

theorem test_encode_dec48 :
    encode (.dec48 0x69A3B50754AB#64) =
      0b1100000000000000000011010011010001110110101000001110101010010101011#67 := by decide

/-- The table's own word of ENC32's row with every operand bit 0 (its "match"). -/
theorem test_decodeTableWord_enc32 : decodeTableWord 67 0x10000000000000000 = some (.enc32 0#64) := by decide

theorem test_decodeTableWord_reserved : decodeTableWord 67 0x70000000000000000 = none := by decide

/-- A word of the table, placed, is what the next step runs: DEC16 of 0x6344 (FX-09). -/
theorem test_withFetchWord_runs :
    step (State.reset.withFetchWord 67 0x40000000000006344) =
      .next { State.reset with request := some { op := 0b100#3, a := 0x6344#64 }, response := some (.ok 0x4A34#64) } := by
  rfl

/-! ### One step of each operation (spec/95_test_vectors.md) -/

/-- FX-01. -/
theorem test_enc16_of_12_4 : State.reset.responseTo { op := 0b000#3, a := 0x4A33#64 } = some (.ok 0x6344#64) := by decide

/-- ENC16-03 under P_ENC16_BOUNDARY = 512: 1.0 is corrected (R113). -/
theorem test_enc16_boundary_512 : (State.build { Params.literal with enc16Boundary := 512 }).responseTo { op := 0b000#3, a := 0x3C00#64 } = some (.ok 0x4001#64) := by decide

/-- FX-05. -/
theorem test_enc32_of_1_is_corrected : State.reset.responseTo { op := 0b001#3, a := 0x3F800000#64 } = some (.ok 0x40000001#64) := by decide

/-- R121: 0.1 is a tie; under P_TIES = EVEN it goes down. -/
theorem test_enc32_tie_even : (State.build { Params.literal with ties := .even }).responseTo { op := 0b001#3, a := 0x3DCCCCCD#64 } = some (.ok 0x666666FD#64) := by decide

/-- FX-06. -/
theorem test_enc48_of_105_6 : State.reset.responseTo { op := 0b010#3, a := 0x405A68ED552AAE8B#64 } = some (.ok 0x69A3B50754AB#64) := by decide

/-- R122: the exponent −1073 is truncated. -/
theorem test_enc48_least_subnormal : State.reset.responseTo { op := 0b010#3, a := 0x0000000000000001#64 } = some (.ok 0x400000CF0000#64) := by decide

/-- R160: 65536 rounds to +Inf. -/
theorem test_dec16_overflow : State.reset.responseTo { op := 0b100#3, a := 0x8010#64 } = some (.ok 0x7C00#64) := by decide

/-- R160: −12.40625 under P_DEC16_SIGNED. -/
theorem test_dec16_signed : (State.build { Params.literal with dec16Signed := true }).responseTo { op := 0b100#3, a := 0x9CC4#64 } = some (.ok 0xCA34#64) := by decide

/-- FX-10. -/
theorem test_dec32_negative : State.reset.responseTo { op := 0b101#3, a := 0x997AE105#64 } = some (.ok 0xC1CD0A3E#64) := by decide

/-- R161: a negative value below the least subnormal rounds to −0. -/
theorem test_dec32_minus_zero : State.reset.responseTo { op := 0b101#3, a := 0xFFFFFF80#64 } = some (.ok 0x80000000#64) := by decide

/-- FX-11. -/
theorem test_dec48_of_105_6 : State.reset.responseTo { op := 0b110#3, a := 0x69A3B50754AB#64 } = some (.ok 0x405A68ED552AC000#64) := by decide

/-- R162: −3.0 under P_DEC48_SIGNED. -/
theorem test_dec48_signed : (State.build { Params.literal with dec48Signed := true }).responseTo { op := 0b110#3, a := 0xA00000020000#64 } = some (.ok 0xC008000000000000#64) := by decide

/-! ### Conditions -/

/-- R207's own example: the wide operand is reported although A[31:0] is a NaN. -/
theorem test_priority :
    State.reset.responseTo { op := 0b001#3, a := 0x000000017FC00000#64 } = some (.raised .illegalOperand) := by decide

/-- R203: A is not examined. -/
theorem test_reserved_op :
    State.reset.responseTo { op := 0b111#3, a := 0xFFFFFFFFFFFFFFFF#64 } = some (.raised .illegalOperation) := by decide

/-- R205: −Inf at 16 bits. -/
theorem test_non_finite :
    State.reset.responseTo { op := 0b000#3, a := 0xFC00#64 } = some (.raised .nonFiniteInput) := by decide

/-- R201: after a condition STATUS is its code and R has no value. -/
theorem test_raised_ports : (State.reset.answered (.raised .illegalOperand)).status = some 0b11#2 ∧
    (State.reset.answered (.raised .illegalOperand)).result = none := by decide

/-- R216: the second copy of a platform answers; the first is untouched. -/
theorem test_platform_step :
    ((Platform.build 2 (by decide) Params.literal).setAt 1 (State.reset.drive ⟨0b100#3, 0x6344#64⟩)).stepAt 1 =
      .next ⟨[State.reset, (State.reset.drive ⟨0b100#3, 0x6344#64⟩).answered (.ok 0x4A34#64)], by decide⟩ := by
  rfl

/-- R237: a host has no move while its request is unanswered, and has one again after the response. -/
theorem test_issue_held_back :
    (State.reset.drive ⟨0b000#3, 0x3C00#64⟩).issue ⟨0b000#3, 0#64⟩ = none ∧
    ((State.reset.drive ⟨0b000#3, 0x3C00#64⟩).answered (.ok 0x8000#64)).issue ⟨0b000#3, 0#64⟩ =
      some (State.reset.drive ⟨0b000#3, 0#64⟩) := by decide

/-! ### The assembler form (R76, R77) -/

/-- R76, FX-01: `ENC16 12.4` assembles to A = 0x4A33. -/
theorem test_assemble_decimal :
    (AsmLine.line .enc16 (.decimal ⟨false, 124, -1⟩)).assemble [] = some { op := 0b000#3, a := 0x4A33#64 } := by decide

/-- P3, steps 7 and 8: `ENC16 0x3C00`, then `DEC16 r1` on the R of step 1. -/
theorem test_program_round_trip :
    State.reset.runLines [] [.line .enc16 (.hex 0x3C00), .line .dec16 (.result 1)] =
      [.ok 0x8000#64, .ok 0x3C00#64] := by decide

/-! ### Witnesses: what each statement of Obligations.lean assumes is met by something -/

/-- A block built with parameters p, with a request on its ports. -/
def asking (p : Params) (op : OpCode) (a : PortWord) : State := (State.build p).drive { op := op, a := a }

/-- Both alternatives of the 16-bit parameters together (R163). -/
def alternative : Params := { Params.literal with enc16Boundary := 512, dec16Signed := true }

/-- The value of a finite pattern, as the statements write it. -/
theorem nativeQ_binary16 {b : PortWord} {x : Scaled} (h : ieeeValue .binary16 b = .finite x) :
    nativeQ 5 10 15 b = some (valueQ x) := nativeQ_of_finite h

theorem nativeQ_binary32 {b : PortWord} {x : Scaled} (h : ieeeValue .binary32 b = .finite x) :
    nativeQ 8 23 127 b = some (valueQ x) := nativeQ_of_finite h

theorem nativeQ_binary64 {b : PortWord} {x : Scaled} (h : ieeeValue .binary64 b = .finite x) :
    nativeQ 11 52 1023 b = some (valueQ x) := nativeQ_of_finite h

theorem valueQ_ne_zero {x : Scaled} (h : x.num ≠ 0) : valueQ x ≠ 0 := fun h0 => h (valueQ_eq_zero.mp h0)

/-- Each width's rounded mantissa, as the statements write it. -/
theorem roundQ_9 {t : Ties} {x : Scaled} {m : ℤ} (hx : x.num ≠ 0) (h : roundedMantissa .w16 t x = m) :
    roundQ t (scaledQ 9 (valueQ x)) = m := h ▸ (roundedMantissa_eq .w16 t hx).symm

theorem roundQ_23 {t : Ties} {x : Scaled} {m : ℤ} (hx : x.num ≠ 0) (h : roundedMantissa .w32 t x = m) :
    roundQ t (scaledQ 23 (valueQ x)) = m := h ▸ (roundedMantissa_eq .w32 t hx).symm

theorem roundQ_39 {t : Ties} {x : Scaled} {m : ℤ} (hx : x.num ≠ 0) (h : roundedMantissa .w48 t x = m) :
    roundQ t (scaledQ 39 (valueQ x)) = m := h ▸ (roundedMantissa_eq .w48 t hx).symm

/-- The exponent of R106, as the statements write it. -/
theorem exponent_32 {t : Ties} {x : Scaled} {m e : ℤ} (hx : x.num ≠ 0) (h : roundedMantissa .w32 t x = m)
    (he : (if m = 2 ^ 23 then x.ceilLog2 + 1 else x.ceilLog2) = e) :
    correctedExponent (2 ^ 23) (roundQ t (scaledQ 23 (valueQ x))) (exponentQ (valueQ x)) = e := by
  rw [roundQ_23 hx h, ← ceilLog2_eq_exponentQ hx, ← he, correctedExponent]

theorem exponent_48 {t : Ties} {x : Scaled} {m e : ℤ} (hx : x.num ≠ 0) (h : roundedMantissa .w48 t x = m)
    (he : (if m = 2 ^ 39 then x.ceilLog2 + 1 else x.ceilLog2) = e) :
    correctedExponent (2 ^ 39) (roundQ t (scaledQ 39 (valueQ x))) (exponentQ (valueQ x)) = e := by
  rw [roundQ_39 hx h, ← ceilLog2_eq_exponentQ hx, ← he, correctedExponent]

theorem witness_StepRunsDecodedRequest :
    ∃ (s : State) (rq : Request) (i : Instr), s.request = some rq ∧ decode rq.word = .instr i :=
  ⟨asking Params.literal 0b001#3 0x40A77CEE#64, ⟨0b001#3, 0x40A77CEE#64⟩, .enc32 0x40A77CEE#64, rfl, by decide⟩

theorem witness_StepWithoutRequest : State.reset.request = none := rfl

theorem witness_DecodeEncodeAgree :
    (∃ w i, decode w = .instr i) ∧ (∃ w : RequestWord, ReservedOp (w.extractLsb' 64 3)) ∧ ∃ w op, decode w = .reservedOp op :=
  ⟨⟨0x600009B781202AEEF#67, .dec48 0x9B781202AEEF#64, by decide⟩, ⟨0x30000000000000000#67, .inl (by decide)⟩,
    ⟨0x7FFFFFFFFFFFFFFFF#67, 0b111#3, by decide⟩⟩

theorem witness_ExecChangesOnlyTheResponse :
    ∃ s t : State, t.params = s.params ∧ t.request ≠ s.request ∧ t.response ≠ s.response :=
  ⟨State.reset, (asking Params.literal 0b000#3 0#64).answered (.ok 0), rfl, by decide, by decide⟩

/-- The invariant holds at reset, and of a block with a response on its ports. -/
theorem reset_inv : Inv State.reset := by intro r h; cases h

theorem witness_StepKeepsInvariant :
    ∃ s t : State, Inv s ∧ s.response ≠ none ∧ step s = .next t := by
  refine ⟨(asking Params.literal 0b001#3 0x000000017FC00000#64).answered (.raised .illegalOperand), _, ?_, by decide, rfl⟩
  intro r h
  cases h
  exact ⟨_, rfl, by simp [ReservedOp], by simp [WideOperand, operandWidth]⟩

theorem witness_EveryRequestAnswered : (asking Params.literal 0b000#3 0x3C00#64).request = some ⟨0b000#3, 0x3C00#64⟩ := rfl

theorem witness_ResponseDependsOnRequestAndParameters :
    ∃ s t : State, ∃ rq, s.request = some rq ∧ t.request = some rq ∧ s.params = t.params ∧ s ≠ t :=
  ⟨asking Params.literal 0b000#3 0x3C00#64, (asking Params.literal 0b000#3 0x3C00#64).answered (.ok 1), _, rfl, rfl, rfl,
    by decide⟩

theorem witness_ParametersNeverWritten : ∃ s t : State, step s = .next t ∧ s ≠ t :=
  ⟨asking Params.literal 0b100#3 0x6344#64, _, rfl, by decide⟩

theorem witness_RepeatedRequest : ∃ s t : State, step s = .next t ∧ t.response = some (.ok 0x4A34#64) :=
  ⟨asking Params.literal 0b100#3 0x6344#64, _, rfl, by decide⟩

theorem witness_RequestsIndependent :
    State.reset.unanswered = false ∧ ((asking Params.literal 0b000#3 0#64).answered (.ok 0)).unanswered = false ∧
    ∃ a b : Request, a ≠ b ∧ [a, b].Perm [b, a] :=
  ⟨rfl, rfl, ⟨0b000#3, 0#64⟩, ⟨0b111#3, 0#64⟩, by decide, List.Perm.swap _ _ _⟩

theorem witness_NothingLeftBehind :
    ∃ u t : State, State.reset.issue ⟨0b111#3, 0#64⟩ = some u ∧ step u = .next t ∧
      t.response = some (.raised .illegalOperation) :=
  ⟨_, _, rfl, rfl, rfl⟩

theorem witness_InstancesIndependent :
    ∃ pf pf' qf : Platform, pf.stepAt 0 = .next pf' ∧ pf.stepAt 1 = .next qf ∧ pf ≠ pf' ∧ pf ≠ qf :=
  ⟨⟨[asking Params.literal 0b000#3 0x3C00#64, asking Params.literal 0b100#3 0x6344#64], by decide⟩, _, _, rfl, rfl,
    by decide, by decide⟩

/-- A platform of one copy, the least; a copy that may be issued to and one that may not. -/
theorem witness_PlatformInstances :
    ∃ pf pf' qf : Platform, pf.nInstances = 1 ∧ pf.stepAt 0 = .next pf' ∧ pf.issueAt 0 ⟨0b111#3, 0#64⟩ = none ∧
      pf'.issueAt 0 ⟨0b111#3, 0#64⟩ = some qf :=
  ⟨(Platform.build 1 (by decide) Params.literal).setAt 0 (asking Params.literal 0b000#3 0x3C00#64), _, _, rfl, rfl,
    rfl, rfl⟩

theorem witness_IssueMeetsInvariant :
    ∃ s u : State, s.response ≠ none ∧ s.issue ⟨0b111#3, 0#64⟩ = some u :=
  ⟨(asking Params.literal 0b000#3 0#64).answered (.ok 0), _, by decide, rfl⟩

/-- A request held unanswered, and the same answered. -/
theorem witness_HostMayIssue :
    (∃ held, (asking Params.literal 0b000#3 0#64).request = some held ∧
      (asking Params.literal 0b000#3 0#64).response = none) ∧
    (∃ u, ((asking Params.literal 0b000#3 0#64).answered (.ok 0)).issue ⟨0b001#3, 0#64⟩ = some u) ∧
    ∃ t, step (asking Params.literal 0b000#3 0#64) = .next t := ⟨⟨_, rfl, rfl⟩, ⟨_, rfl⟩, ⟨_, rfl⟩⟩

theorem witness_ReservedOpRaises :
    (asking Params.literal 0b011#3 1#64).request = some ⟨0b011#3, 1#64⟩ ∧
    (asking Params.literal 0b111#3 0xFFFFFFFFFFFFFFFF#64).request = some ⟨0b111#3, 0xFFFFFFFFFFFFFFFF#64⟩ := ⟨rfl, rfl⟩

/-- Each form of the condition at the lowest bit above its operand, and ENC48's widest operand outside it. -/
theorem witness_IllegalOperandExactly :
    (asking Params.literal 0b000#3 0x10000#64).request = some ⟨0b000#3, 0x10000#64⟩ ∧ 0x10000#64 >>> 16 ≠ 0 ∧
    0x100000000#64 >>> 32 ≠ 0 ∧ 0x1000000000000#64 >>> 48 ≠ 0 ∧ 0xFFFFFFFFFFFF#64 >>> 48 = 0 ∧
    step (asking Params.literal 0b010#3 0x8000000000000000#64) =
      .next ((asking Params.literal 0b010#3 0x8000000000000000#64).answered (.ok 0)) :=
  ⟨rfl, by decide, by decide, by decide, by decide, rfl⟩

/-- The least and the greatest pattern of each format that is not finite, and the greatest finite one. -/
theorem witness_NonFiniteInputExactly :
    (0x7C00#64).extractLsb' 10 5 = 0x1F#5 ∧ (0xFFFF#64).extractLsb' 10 5 = 0x1F#5 ∧
    (0x7BFF#64).extractLsb' 10 5 ≠ 0x1F#5 ∧ (0x7F800000#64).extractLsb' 23 8 = 0xFF#8 ∧
    (0x7F7FFFFF#64).extractLsb' 23 8 ≠ 0xFF#8 ∧ (0x7FF0000000000000#64).extractLsb' 52 11 = 0x7FF#11 ∧
    (0x7FEFFFFFFFFFFFFF#64).extractLsb' 52 11 ≠ 0x7FF#11 := by decide

theorem witness_ConditionPriority :
    ReservedOp 0b011#3 ∧
    (¬ReservedOp 0b001#3 ∧ WideOperand ⟨0b001#3, 0x17FC00000#64⟩ ∧ NonFiniteOperand ⟨0b001#3, 0x17FC00000#64⟩) ∧
    (¬ReservedOp 0b001#3 ∧ ¬WideOperand ⟨0b001#3, 0x7FC00000#64⟩ ∧ NonFiniteOperand ⟨0b001#3, 0x7FC00000#64⟩) := by
  simp [ReservedOp, WideOperand, NonFiniteOperand, operandWidth]

theorem witness_NothingElseRaised :
    ¬ReservedOp 0b100#3 ∧ ¬WideOperand ⟨0b100#3, 0xFFFF#64⟩ ∧ ¬NonFiniteOperand ⟨0b100#3, 0xFFFF#64⟩ := by
  simp [ReservedOp, WideOperand, NonFiniteOperand, operandWidth]

/-- All four clauses: a wide operand, the two infinities, the two zeros, and the least and greatest magnitudes. -/
theorem witness_Enc16Operation :
    0x10000#64 >>> 16 ≠ 0 ∧ nativeQ 5 10 15 0x7C00#64 = none ∧ nativeQ 5 10 15 0xFC00#64 = none ∧
    nativeQ 5 10 15 0x8000#64 = some 0 ∧
    (∃ x, nativeQ 5 10 15 0x0001#64 = some x ∧ x ≠ 0) ∧ ∃ x, nativeQ 5 10 15 0xFBFF#64 = some x ∧ x ≠ 0 :=
  ⟨by decide, nativeQ_eq_none (f := .binary16).mpr (by decide), nativeQ_eq_none (f := .binary16).mpr (by decide),
    (nativeQ_binary16 (x := ⟨0, -24⟩) (by decide)).trans (by simp [valueQ]),
    ⟨_, nativeQ_binary16 (x := ⟨1, -24⟩) (by decide), valueQ_ne_zero (by decide)⟩,
    ⟨_, nativeQ_binary16 (x := ⟨-2047, 5⟩) (by decide), valueQ_ne_zero (by decide)⟩⟩

theorem witness_Enc32Operation :
    0x100000000#64 >>> 32 ≠ 0 ∧ nativeQ 8 23 127 0x7FC00000#64 = none ∧ nativeQ 8 23 127 0x80000000#64 = some 0 ∧
    (∃ x, nativeQ 8 23 127 0x00000001#64 = some x ∧ x ≠ 0) ∧ ∃ x, nativeQ 8 23 127 0xFF7FFFFF#64 = some x ∧ x ≠ 0 :=
  ⟨by decide, nativeQ_eq_none (f := .binary32).mpr (by decide),
    (nativeQ_binary32 (x := ⟨0, -149⟩) (by decide)).trans (by simp [valueQ]),
    ⟨_, nativeQ_binary32 (x := ⟨1, -149⟩) (by decide), valueQ_ne_zero (by decide)⟩,
    ⟨_, nativeQ_binary32 (x := ⟨-16777215, 104⟩) (by decide), valueQ_ne_zero (by decide)⟩⟩

theorem witness_Enc48Operation :
    nativeQ 11 52 1023 0xFFF0000000000000#64 = none ∧ nativeQ 11 52 1023 0x8000000000000000#64 = some 0 ∧
    (∃ x, nativeQ 11 52 1023 0x0000000000000001#64 = some x ∧ x ≠ 0) ∧
    ∃ x, nativeQ 11 52 1023 0xFFEFFFFFFFFFFFFF#64 = some x ∧ x ≠ 0 :=
  ⟨nativeQ_eq_none (f := .binary64).mpr (by decide),
    (nativeQ_binary64 (x := ⟨0, -1074⟩) (by decide)).trans (by simp [valueQ]),
    ⟨_, nativeQ_binary64 (x := ⟨1, -1074⟩) (by decide), valueQ_ne_zero (by decide)⟩,
    ⟨_, nativeQ_binary64 (x := ⟨-9007199254740991, 971⟩) (by decide), valueQ_ne_zero (by decide)⟩⟩

theorem witness_Dec16Operation : 0x10000#64 >>> 16 ≠ 0 ∧ 0xFFFF#64 >>> 16 = 0 := by decide

theorem witness_Dec32Operation : 0x100000000#64 >>> 32 ≠ 0 ∧ 0xFFFFFFFF#64 >>> 32 = 0 := by decide

theorem witness_Dec48Operation : 0x1000000000000#64 >>> 48 ≠ 0 ∧ 0xFFFFFFFFFFFF#64 >>> 48 = 0 := by decide

/-- The ends of R103's ranges. -/
theorem witness_ExponentNormalisation :
    (ieeeValue .binary16 0x0001#64 = .finite ⟨1, -24⟩ ∧ Scaled.ceilLog2 ⟨1, -24⟩ = -24) ∧
    (ieeeValue .binary16 0x7BFF#64 = .finite ⟨2047, 5⟩ ∧ Scaled.ceilLog2 ⟨2047, 5⟩ = 16) ∧
    (ieeeValue .binary32 0x00000001#64 = .finite ⟨1, -149⟩ ∧ Scaled.ceilLog2 ⟨1, -149⟩ = -149) ∧
    (ieeeValue .binary32 0x7F7FFFFF#64 = .finite ⟨16777215, 104⟩ ∧ Scaled.ceilLog2 ⟨16777215, 104⟩ = 128) ∧
    (ieeeValue .binary64 0x0000000000000001#64 = .finite ⟨1, -1074⟩ ∧ Scaled.ceilLog2 ⟨1, -1074⟩ = -1074) ∧
    ieeeValue .binary64 0x7FEFFFFFFFFFFFFF#64 = .finite ⟨9007199254740991, 971⟩ ∧
      Scaled.ceilLog2 ⟨9007199254740991, 971⟩ = 1024 := by decide

/-- A tie of either sign, which the two rules round apart. -/
theorem witness_RoundingRule :
    (⟨513, -10⟩ : Scaled).num ≠ 0 ∧ roundedMantissa .w16 .away ⟨513, -10⟩ = 257 ∧
    roundedMantissa .w16 .even ⟨513, -10⟩ = 256 ∧ roundedMantissa .w16 .away ⟨-513, -10⟩ = -257 := by decide

/-- Both ends of R105's range: just above a power of two, and just below one. -/
theorem witness_RoundedMantissaRange :
    roundedMantissa .w16 .away ⟨1025, -10⟩ = 256 ∧ roundedMantissa .w16 .even ⟨2047, -10⟩ = 512 ∧
    roundedMantissa .w32 .away ⟨-1, 0⟩ = -2 ^ 23 := by decide

theorem witness_ExtraSignBitRedundant :
    ((true : Bool) = true → (⟨-1, 0⟩ : Scaled).num ≤ 0) ∧ ((true : Bool) = true → (⟨0, -149⟩ : Scaled).num ≤ 0) ∧
    (⟨-1, 0⟩ : Scaled).num < 0 := by decide

theorem witness_ZeroEncodesToZero :
    (asking Params.literal 0b000#3 0x8000#64).request = some ⟨0b000#3, 0x8000#64⟩ := rfl

theorem witness_ExponentTruncation :
    (∃ x, x ≠ 0 ∧ 0x0001#64 >>> 16 = 0 ∧ nativeQ 5 10 15 0x0001#64 = some x ∧ ListedBoundary Params.literal ∧
      ListedBoundary alternative) ∧
    (∃ x, x ≠ 0 ∧ 0x7F7FFFFF#64 >>> 32 = 0 ∧ nativeQ 8 23 127 0x7F7FFFFF#64 = some x ∧
      correctedExponent (2 ^ 23) (roundQ .away (scaledQ 23 x)) (exponentQ x) = 129) ∧
    (∃ x, x ≠ 0 ∧ nativeQ 11 52 1023 0x8000000000000001#64 = some x ∧
      correctedExponent (2 ^ 39) (roundQ .away (scaledQ 39 x)) (exponentQ x) = -1074) :=
  ⟨⟨_, valueQ_ne_zero (by decide), by decide, nativeQ_binary16 (x := ⟨1, -24⟩) (by decide), .inl rfl, .inr rfl⟩,
    ⟨_, valueQ_ne_zero (by decide), by decide, nativeQ_binary32 (x := ⟨16777215, 104⟩) (by decide),
      exponent_32 (m := 2 ^ 23) (by decide) (by decide) (by decide)⟩,
    ⟨_, valueQ_ne_zero (by decide), nativeQ_binary64 (x := ⟨-1, -1074⟩) (by decide),
      exponent_48 (m := -2 ^ 39) (by decide) (by decide) (by decide)⟩⟩

/-- A mantissa of +512 that is no power of two (65504), and the powers 2^−24, 2^0 and 2^15. -/
theorem witness_Enc16Aliasing :
    Params.literal.enc16Boundary = 32768 ∧ 0x7BFF#64 >>> 16 = 0 ∧
    (∃ x, nativeQ 5 10 15 0x7BFF#64 = some x ∧ roundQ .away (scaledQ 9 x) = 512) ∧
    nativeQ 5 10 15 0x0001#64 = some (2 ^ (-24 : ℤ)) ∧ nativeQ 5 10 15 0x3C00#64 = some (2 ^ (0 : ℤ)) ∧
    nativeQ 5 10 15 0x7800#64 = some (2 ^ (15 : ℤ)) := by
  refine ⟨rfl, by decide, ⟨_, nativeQ_binary16 (x := ⟨2047, 5⟩) (by decide), roundQ_9 (by decide) (by decide)⟩, ?_, ?_, ?_⟩
  · exact (nativeQ_binary16 (x := ⟨1, -24⟩) (by decide)).trans (by norm_num [valueQ])
  · exact (nativeQ_binary16 (x := ⟨1024, -10⟩) (by decide)).trans (by norm_num [valueQ])
  · exact (nativeQ_binary16 (x := ⟨1024, 5⟩) (by decide)).trans (by norm_num [valueQ])

theorem witness_SignSymmetry :
    (∃ x, x ≠ 0 ∧ 0x4A33#64 >>> 16 = 0 ∧ nativeQ 5 10 15 0x4A33#64 = some x ∧ |roundQ .away (scaledQ 9 x)| < 2 ^ 9) ∧
    (∃ x, x ≠ 0 ∧ 0x40A77CEE#64 >>> 32 = 0 ∧ nativeQ 8 23 127 0x40A77CEE#64 = some x ∧
      |roundQ .away (scaledQ 23 x)| < 2 ^ 23) ∧
    (∃ x, x ≠ 0 ∧ nativeQ 8 23 127 0x3F800000#64 = some x ∧ |roundQ .away (scaledQ 23 x)| = 2 ^ 23) ∧
    (∃ x, x ≠ 0 ∧ nativeQ 11 52 1023 0x405A68ED552AAE8B#64 = some x ∧ |roundQ .away (scaledQ 39 x)| < 2 ^ 39) ∧
    ∃ x, x ≠ 0 ∧ nativeQ 11 52 1023 0xBFF0000000000000#64 = some x ∧ |roundQ .away (scaledQ 39 x)| = 2 ^ 39 := by
  refine ⟨⟨_, valueQ_ne_zero ?_, by decide, nativeQ_binary16 (x := ⟨1587, -7⟩) (by decide), ?_⟩,
    ⟨_, valueQ_ne_zero ?_, by decide, nativeQ_binary32 (x := ⟨10976494, -21⟩) (by decide), ?_⟩,
    ⟨_, valueQ_ne_zero ?_, nativeQ_binary32 (x := ⟨8388608, -23⟩) (by decide), ?_⟩,
    ⟨_, valueQ_ne_zero ?_, nativeQ_binary64 (x := ⟨7433717939875467, -46⟩) (by decide), ?_⟩,
    ⟨_, valueQ_ne_zero ?_, nativeQ_binary64 (x := ⟨-4503599627370496, -52⟩) (by decide), ?_⟩⟩
  · decide
  · rw [roundQ_9 (m := 397) (by decide) (by decide)]; decide
  · decide
  · rw [roundQ_23 (m := 5488247) (by decide) (by decide)]; decide
  · decide
  · rw [roundQ_23 (m := 2 ^ 23) (by decide) (by decide)]; decide
  · decide
  · rw [roundQ_39 (m := 453718135979) (by decide) (by decide)]; decide
  · decide
  · rw [roundQ_39 (m := -2 ^ 39) (by decide) (by decide)]; decide

/-- A mantissa off the boundary under the default and one of +512 under 512; the 32- and 48-bit exponents at an end of [−128, 127], with the boundary correction and without. -/
theorem witness_EncodedWordAccuracy :
    (∃ x, x ≠ 0 ∧ 0xCA33#64 >>> 16 = 0 ∧ nativeQ 5 10 15 0xCA33#64 = some x ∧
      roundQ Params.literal.ties (scaledQ 9 x) ≠ 512 ∧
      roundQ Params.literal.ties (scaledQ 9 x) ≠ Params.literal.enc16Boundary) ∧
    (∃ x, x ≠ 0 ∧ nativeQ 5 10 15 0x3C00#64 = some x ∧ roundQ alternative.ties (scaledQ 9 x) = 512 ∧
      alternative.enc16Boundary = 512 ∧ Even alternative.enc16Boundary) ∧
    (∃ x, x ≠ 0 ∧ 0x7E800000#64 >>> 32 = 0 ∧ nativeQ 8 23 127 0x7E800000#64 = some x ∧
      correctedExponent (2 ^ 23) (roundQ .away (scaledQ 23 x)) (exponentQ x) = 127) ∧
    ∃ x, x ≠ 0 ∧ nativeQ 11 52 1023 0xB7F0000000000000#64 = some x ∧
      correctedExponent (2 ^ 39) (roundQ .even (scaledQ 39 x)) (exponentQ x) = -128 :=
  ⟨⟨_, valueQ_ne_zero (by decide), by decide, nativeQ_binary16 (x := ⟨-1587, -7⟩) (by decide),
      (roundQ_9 (m := -397) (by decide) (by decide)).trans_ne (by decide),
      (roundQ_9 (m := -397) (by decide) (by decide)).trans_ne (by decide)⟩,
    ⟨_, valueQ_ne_zero (by decide), nativeQ_binary16 (x := ⟨1024, -10⟩) (by decide), roundQ_9 (by decide) (by decide),
      rfl, by decide⟩,
    ⟨_, valueQ_ne_zero (by decide), by decide, nativeQ_binary32 (x := ⟨8388608, 103⟩) (by decide),
      exponent_32 (m := 2 ^ 23) (by decide) (by decide) (by decide)⟩,
    ⟨_, valueQ_ne_zero (by decide), nativeQ_binary64 (x := ⟨-4503599627370496, -180⟩) (by decide),
      exponent_48 (m := -2 ^ 39) (by decide) (by decide) (by decide)⟩⟩

/-- A tie above an even integer, a tie above an odd one, and an input that is none. -/
theorem witness_TiesOfNormalInputs :
    (∃ x, 0x3802#64 >>> 16 = 0 ∧ nativeQ 5 10 15 0x3802#64 = some x ∧ (0x3802#64).extractLsb' 10 5 ≠ 0 ∧
      (0x3802#64).extractLsb' 0 10 ≠ 0 ∧ (0x3802#64).extractLsb' 0 3 = 0b010#3) ∧
    (∃ x, nativeQ 5 10 15 0x3806#64 = some x ∧ (0x3806#64).extractLsb' 10 5 ≠ 0 ∧ (0x3806#64).extractLsb' 0 10 ≠ 0 ∧
      (0x3806#64).extractLsb' 0 2 = 0b10#2 ∧ (0x3806#64).extractLsb' 0 3 ≠ 0b010#3) ∧
    (∃ x, nativeQ 5 10 15 0x7BFF#64 = some x ∧ (0x7BFF#64).extractLsb' 10 5 ≠ 0 ∧ (0x7BFF#64).extractLsb' 0 10 ≠ 0) ∧
    (∃ x, 0x3DCCCCCD#64 >>> 32 = 0 ∧ nativeQ 8 23 127 0x3DCCCCCD#64 = some x ∧ (0x3DCCCCCD#64).extractLsb' 23 8 ≠ 0 ∧
      (0x3DCCCCCD#64).extractLsb' 0 23 ≠ 0 ∧ (0x3DCCCCCD#64).extractLsb' 0 2 = 0b01#2) ∧
    ∃ x, nativeQ 11 52 1023 0x3FF0000000002000#64 = some x ∧ (0x3FF0000000002000#64).extractLsb' 52 11 ≠ 0 ∧
      (0x3FF0000000002000#64).extractLsb' 0 52 ≠ 0 ∧ (0x3FF0000000002000#64).extractLsb' 0 15 = 0x2000#15 :=
  ⟨⟨_, by decide, nativeQ_binary16 (x := ⟨1026, -11⟩) (by decide), by decide, by decide, by decide⟩,
    ⟨_, nativeQ_binary16 (x := ⟨1030, -11⟩) (by decide), by decide, by decide, by decide, by decide⟩,
    ⟨_, nativeQ_binary16 (x := ⟨2047, 5⟩) (by decide), by decide, by decide⟩,
    ⟨_, by decide, nativeQ_binary32 (x := ⟨13421773, -27⟩) (by decide), by decide, by decide, by decide⟩,
    ⟨_, nativeQ_binary64 (x := ⟨4503599627378688, -52⟩) (by decide), by decide, by decide, by decide⟩⟩

/-- 1.0 at each width, and subnormals: at 16 bits T = 513 (a tie above an even integer) and T = 512. -/
theorem witness_TiesOfPowersAndSubnormals :
    (∃ x, 0x3C00#64 >>> 16 = 0 ∧ nativeQ 5 10 15 0x3C00#64 = some x ∧ (0x3C00#64).extractLsb' 10 5 ≠ 0 ∧
      (0x3C00#64).extractLsb' 0 10 = 0) ∧
    (∃ x, 0x3F800000#64 >>> 32 = 0 ∧ nativeQ 8 23 127 0x3F800000#64 = some x ∧ (0x3F800000#64).extractLsb' 23 8 ≠ 0 ∧
      (0x3F800000#64).extractLsb' 0 23 = 0) ∧
    (∃ x, nativeQ 11 52 1023 0x3FF0000000000000#64 = some x ∧ (0x3FF0000000000000#64).extractLsb' 52 11 ≠ 0 ∧
      (0x3FF0000000000000#64).extractLsb' 0 52 = 0) ∧
    (∃ x, 0x0201#64 >>> 16 = 0 ∧ nativeQ 5 10 15 0x0201#64 = some x ∧ (0x0201#64).extractLsb' 10 5 = 0 ∧
      (0x0201#64).extractLsb' 0 10 = 513 ∧ (0x0201#64).extractLsb' 0 2 = 0b01#2) ∧
    (∃ x, nativeQ 5 10 15 0x0200#64 = some x ∧ (0x0200#64).extractLsb' 10 5 = 0 ∧ (0x0200#64).extractLsb' 0 10 = 512) ∧
    (∃ x, 0x007FFFFF#64 >>> 32 = 0 ∧ nativeQ 8 23 127 0x007FFFFF#64 = some x ∧ (0x007FFFFF#64).extractLsb' 23 8 = 0 ∧
      (0x007FFFFF#64).extractLsb' 0 23 ≠ 0) ∧
    ∃ x, nativeQ 11 52 1023 0x0000000000000001#64 = some x ∧ (0x0000000000000001#64).extractLsb' 52 11 = 0 ∧
      (0x0000000000000001#64).extractLsb' 0 52 ≠ 0 :=
  ⟨⟨_, by decide, nativeQ_binary16 (x := ⟨1024, -10⟩) (by decide), by decide, by decide⟩,
    ⟨_, by decide, nativeQ_binary32 (x := ⟨8388608, -23⟩) (by decide), by decide, by decide⟩,
    ⟨_, nativeQ_binary64 (x := ⟨4503599627370496, -52⟩) (by decide), by decide, by decide⟩,
    ⟨_, by decide, nativeQ_binary16 (x := ⟨513, -24⟩) (by decide), by decide, by decide, by decide⟩,
    ⟨_, nativeQ_binary16 (x := ⟨512, -24⟩) (by decide), by decide, by decide⟩,
    ⟨_, by decide, nativeQ_binary32 (x := ⟨8388607, -149⟩) (by decide), by decide, by decide⟩,
    ⟨_, nativeQ_binary64 (x := ⟨1, -1074⟩) (by decide), by decide, by decide⟩⟩

/-- A finite input of each format. -/
theorem witness_TieRuleOnlyAtTies :
    (∃ x, 0x3802#64 >>> 16 = 0 ∧ nativeQ 5 10 15 0x3802#64 = some x) ∧
    (∃ x, 0x3F800001#64 >>> 32 = 0 ∧ nativeQ 8 23 127 0x3F800001#64 = some x) ∧
    ∃ x, nativeQ 11 52 1023 0x3FF0000000002000#64 = some x :=
  ⟨⟨_, by decide, nativeQ_binary16 (x := ⟨1026, -11⟩) (by decide)⟩,
    ⟨_, by decide, nativeQ_binary32 (x := ⟨8388609, -23⟩) (by decide)⟩,
    ⟨_, nativeQ_binary64 (x := ⟨4503599627378688, -52⟩) (by decide)⟩⟩

theorem witness_Dec48Exact : 0xFFFFFFFFFFFF#64 >>> 48 = 0 := by decide

/-- The exact clause at its least exponent, −126, and a word outside it. -/
theorem witness_Dec32Exact :
    0x80000082#64 >>> 32 = 0 ∧ ((0x80000082#64).extractLsb' 0 8).toInt = -126 ∧
    0xFFFFFF80#64 >>> 32 = 0 ∧ ((0xFFFFFF80#64).extractLsb' 0 8).toInt = -128 := by decide

/-- v at 65520 and above, at −65520 and below, and between them at the least exponent of the exact clause. -/
theorem witness_Dec16Range :
    (65520 : ℚ) ≤ ((0x8010#64).extractLsb' 6 10).toNat * 2 ^ (((0x8010#64).extractLsb' 0 6).toInt - 9) ∧
    ((0x8010#64).extractLsb' 6 10).toInt * 2 ^ (((0x8010#64).extractLsb' 0 6).toInt - 9) ≤ (-65520 : ℚ) ∧
    |(((0x0071#64).extractLsb' 6 10).toNat : ℚ) * 2 ^ (((0x0071#64).extractLsb' 0 6).toInt - 9)| < 65520 ∧
    -15 ≤ ((0x0071#64).extractLsb' 0 6).toInt := by
  refine ⟨?_, ?_, ?_, by decide⟩
  · rw [show ((0x8010#64).extractLsb' 6 10).toNat = 512 by decide, show ((0x8010#64).extractLsb' 0 6).toInt = 16 by decide]
    norm_num
  · rw [show ((0x8010#64).extractLsb' 6 10).toInt = -512 by decide, show ((0x8010#64).extractLsb' 0 6).toInt = 16 by decide]
    norm_num
  · rw [show ((0x0071#64).extractLsb' 6 10).toNat = 1 by decide, show ((0x0071#64).extractLsb' 0 6).toInt = -15 by decide]
    norm_num

theorem witness_DecoderZerosAndSigns :
    (0x003F#64 >>> 16 = 0 ∧ (0x003F#64).extractLsb' 6 10 = 0) ∧
    (0x000000FF#64 >>> 32 = 0 ∧ (0x000000FF#64).extractLsb' 8 24 = 0) ∧
    (0x000000800000#64 >>> 48 = 0 ∧ (0x000000800000#64).extractLsb' 24 24 = 0 ∧ (0x000000800000#64).extractLsb' 0 16 = 0) ∧
    Params.literal.dec16Signed = false ∧ Params.literal.dec48Signed = false := by decide

theorem witness_RoundTrip32 :
    (State.build Params.literal).unanswered = false ∧ 0x7E800000#64 >>> 32 = 0 ∧ ∃ x, nativeQ 8 23 127 0x7E800000#64 = some x ∧
      correctedExponent (2 ^ 23) (roundQ .away (scaledQ 23 x)) (exponentQ x) = 127 :=
  ⟨rfl, by decide, _, nativeQ_binary32 (x := ⟨8388608, 103⟩) (by decide),
    exponent_32 (m := 2 ^ 23) (by decide) (by decide) (by decide)⟩

/-- 1.0 and −1.0, whose exponents are 1 and 0. -/
theorem witness_RoundTrip48 :
    (∃ x, nativeQ 11 52 1023 0x3FF0000000000000#64 = some x ∧ 0 ≤ x ∧
      correctedExponent (2 ^ 39) (roundQ .away (scaledQ 39 x)) (exponentQ x) = 1) ∧
    (∃ x, nativeQ 11 52 1023 0xBFF0000000000000#64 = some x ∧ x < 0 ∧
      correctedExponent (2 ^ 39) (roundQ .away (scaledQ 39 x)) (exponentQ x) = 0) ∧
    (State.build Params.literal).unanswered = false ∧
    Params.literal.dec48Signed = false ∧ { Params.literal with dec48Signed := true }.dec48Signed = true :=
  ⟨⟨_, nativeQ_binary64 (x := ⟨4503599627370496, -52⟩) (by decide), by norm_num [valueQ],
      exponent_48 (m := 2 ^ 39) (by decide) (by decide) (by decide)⟩,
    ⟨_, nativeQ_binary64 (x := ⟨-4503599627370496, -52⟩) (by decide), by norm_num [valueQ],
      exponent_48 (m := -2 ^ 39) (by decide) (by decide) (by decide)⟩, rfl, rfl, rfl⟩

/-- The greatest input below 65472, 65472 itself, and a negative input. -/
theorem witness_RoundTrip16Default :
    (State.build Params.literal).unanswered = false ∧
    Params.literal.enc16Boundary = 32768 ∧ Params.literal.dec16Signed = false ∧
    (∃ x, nativeQ 5 10 15 0x7BFD#64 = some x ∧ 0 < x ∧ x < 65472) ∧
    nativeQ 5 10 15 0x7BFE#64 = some 65472 ∧ ∃ x, nativeQ 5 10 15 0xCA33#64 = some x ∧ x < 0 :=
  ⟨rfl, rfl, rfl,
    ⟨_, nativeQ_binary16 (x := ⟨2045, 5⟩) (by decide), by norm_num [valueQ], by norm_num [valueQ]⟩,
    (nativeQ_binary16 (x := ⟨2046, 5⟩) (by decide)).trans (by norm_num [valueQ]),
    ⟨_, nativeQ_binary16 (x := ⟨-1587, -7⟩) (by decide), by norm_num [valueQ]⟩⟩

theorem witness_RoundTrip16Alternative :
    (State.build alternative).unanswered = false ∧
    alternative.enc16Boundary = 512 ∧ alternative.dec16Signed = true ∧
    (∃ x, nativeQ 5 10 15 0xFBFD#64 = some x ∧ |x| < 65472) ∧
    nativeQ 5 10 15 0x7BFE#64 = some 65472 ∧ nativeQ 5 10 15 0xFBFE#64 = some (-65472) :=
  ⟨rfl, rfl, rfl, ⟨_, nativeQ_binary16 (x := ⟨-2045, 5⟩) (by decide), by norm_num [valueQ, abs_lt]⟩,
    (nativeQ_binary16 (x := ⟨2046, 5⟩) (by decide)).trans (by norm_num [valueQ]),
    (nativeQ_binary16 (x := ⟨-2046, 5⟩) (by decide)).trans (by norm_num [valueQ])⟩

/-- 1.0, and 65504 in the overflow band. -/
theorem witness_RoundTrip16Mixed :
    (State.build { Params.literal with dec16Signed := true }).unanswered = false ∧
    ({ Params.literal with dec16Signed := true }.enc16Boundary = 32768) ∧
    (∃ x, nativeQ 5 10 15 0x3C00#64 = some x ∧ roundQ .away (scaledQ 9 x) = 512 ∧ x < 65472) ∧
    ∃ x, nativeQ 5 10 15 0x7BFF#64 = some x ∧ roundQ .away (scaledQ 9 x) = 512 ∧ 65472 ≤ x :=
  ⟨rfl, rfl,
    ⟨_, nativeQ_binary16 (x := ⟨1024, -10⟩) (by decide), roundQ_9 (by decide) (by decide), by norm_num [valueQ]⟩,
    ⟨_, nativeQ_binary16 (x := ⟨2047, 5⟩) (by decide), roundQ_9 (by decide) (by decide), by norm_num [valueQ]⟩⟩

theorem witness_AssembledLine :
    (0x4A33 < 2 ^ 64) ∧ (2 ^ 64 ≤ 2 ^ 64) ∧ ([.ok 0x8000#64] : List Response)[0]? = some (.ok 0x8000#64) ∧
    (∀ v : PortWord, ([.raised .illegalOperand] : List Response)[0]? ≠ some (.ok v)) :=
  ⟨by decide, by decide, rfl, by intro v h; simp at h⟩

theorem witness_DecimalLiteral : Mnemonic.dec48 = .dec16 ∨ Mnemonic.dec48 = .dec32 ∨ Mnemonic.dec48 = .dec48 :=
  .inr (.inr rfl)

end Sys2Proof.Tests
end

