-- ==== Sys2Proof/Proofs/Scope.lean ====
section
/-!
PROOFS. The statements of 00_scope.md: the parameters at reset, and the number of copies of a platform.
-/

namespace Sys2Proof.Proofs

open Sys2Proof.Machine Sys2Proof.Laws

/-- Settles O6: `State.reset` is `State.build` of `Params.literal`, whose fields are R8's defaults. -/
theorem resetParameters : Obligations.ResetParameters := rfl

/-! ### The number of copies -/

theorem nInstances_build (n : ℕ) (hn : 1 ≤ n) (p : Params) : (Platform.build n hn p).nInstances = n :=
  List.length_replicate

theorem build_instances_getElem? {n k : ℕ} (hn : 1 ≤ n) (p : Params) (hk : k < n) :
    (Platform.build n hn p).instances[k]? = some (State.build p) :=
  List.getElem?_replicate_of_lt hk

theorem stepAt_nInstances {pf qf : Platform} {k : ℕ} (h : pf.stepAt k = .next qf) :
    qf.nInstances = pf.nInstances := by
  obtain ⟨-, rfl⟩ | ⟨s, t, -, -, rfl⟩ := stepAt_cases h
  · rfl
  · exact setAt_nInstances pf k t

/-! ### Issuing to one copy -/

theorem issue_eq_none_iff {s : State} {rq : Request} : s.issue rq = none ↔ s.unanswered = true := by
  cases hs : s.unanswered with
  | true => simp [issue_unanswered hs]
  | false => simp [issue_ready hs]

section
variable {pf : Platform} {k : ℕ} {rq : Request} {s : State}

theorem issueAt_eq_none_iff (hk : pf.instances[k]? = some s) :
    pf.issueAt k rq = none ↔ s.unanswered = true := by
  rw [issueAt_some hk, Option.map_eq_none_iff, issue_eq_none_iff]

/-- Everything issuing to copy k can do: the copy issues as a lone block does, and takes its old place. -/
theorem issueAt_cases (hk : pf.instances[k]? = some s) {qf : Platform} (h : pf.issueAt k rq = some qf) :
    ∃ u, s.issue rq = some u ∧ qf = pf.setAt k u := by
  rw [issueAt_some hk] at h
  obtain ⟨u, hu, rfl⟩ := Option.map_eq_some_iff.mp h
  exact ⟨u, hu, rfl⟩

theorem issueAt_frame (hk : pf.instances[k]? = some s) {qf : Platform} (h : pf.issueAt k rq = some qf) :
    qf.nInstances = pf.nInstances ∧ s.issue rq = qf.instances[k]? ∧
      ∀ j, j ≠ k → qf.instances[j]? = pf.instances[j]? := by
  obtain ⟨u, hu, rfl⟩ := issueAt_cases hk h
  exact ⟨setAt_nInstances pf k u, hu.trans (setAt_self hk u).symm, fun _ hj => setAt_other pf u hj⟩

end

/-- Settles O54: a platform's copies change only through `Platform.setAt`, which keeps their number and every other
copy, and issuing to a copy is that copy's own `State.issue`. -/
theorem platformInstances : Obligations.PlatformInstances :=
  ⟨Platform.one_le,
    fun n hn p => ⟨nInstances_build n hn p, fun _ hk => build_instances_getElem? hn p hk⟩,
    fun _ _ _ => stepAt_nInstances,
    fun _ _ _ _ hk => ⟨issueAt_eq_none_iff hk, fun _ => issueAt_frame hk⟩⟩

end Sys2Proof.Proofs
end

section
/-!
PROOFS. The statements of 10_state.md: what a step and exec change, what the response depends on, the STATUS codes,
when the host may issue, and the invariant where no response has been given.
-/

namespace Sys2Proof.Proofs

open Sys2Proof.Machine Sys2Proof.Laws Sys2Proof.Safety

/-! ### Steps and the operations -/

theorem exec_of_params_eq (i : Instr) {s t : State} (h : t.params = s.params) :
    exec i t = .next (t.answered (respond s.params i)) := by
  rw [exec_eq, h]

/-- Settles O8: what operation i answers is `respond` of the parameters, and `State.answered` writes it alone. -/
theorem execChangesOnlyTheResponse : Obligations.ExecChangesOnlyTheResponse :=
  fun i s => ⟨respond s.params i, fun _ => exec_of_params_eq i⟩

theorem step_of_params_eq {s t : State} {rq : Request} (ht : t.request = some rq) (h : s.params = t.params) :
    step t = .next (t.answered (respondTo s.params rq)) := by
  rw [step_some ht, h]

/-- Settles O13: both states are answered `respondTo` of the request and the parameters they share. -/
theorem responseDependsOnRequestAndParameters : Obligations.ResponseDependsOnRequestAndParameters :=
  fun s _ rq hs ht hp => ⟨respondTo s.params rq, step_some hs, step_of_params_eq ht hp⟩

theorem respondTo_of_decode_instr {rq : Request} {i : Instr} (h : decode rq.word = .instr i) (p : Params) :
    respondTo p rq = respond p i := by
  simp only [respondTo, h]

/-- Settles O1: the request is answered what its decoded operation answers. -/
theorem stepRunsDecodedRequest : Obligations.StepRunsDecodedRequest := by
  intro s rq i hr hd
  rw [step_some hr, exec_eq, respondTo_of_decode_instr hd]

/-- Settles O2: without a request a step is idle. -/
theorem stepWithoutRequest : Obligations.StepWithoutRequest := fun _ => step_none

/-- Settles O14: a step is idle or gives a response, and `State.answered` writes neither field. -/
theorem parametersNeverWritten : Obligations.ParametersNeverWritten := by
  intro s t h
  obtain ⟨-, rfl⟩ | ⟨rq, -, rfl⟩ := step_cases h
  · exact ⟨rfl, rfl⟩
  · exact ⟨answered_params s _, answered_request s _⟩

/-! ### The host's move -/

theorem issue_eq_none_iff_held {s : State} {rq : Request} :
    s.issue rq = none ↔ ∃ held, s.request = some held ∧ s.response = none :=
  issue_eq_none_iff.trans unanswered_iff

/-- Settles O53: only an unanswered request holds the host back, and neither a step nor reset leaves one. -/
theorem hostMayIssue : Obligations.HostMayIssue :=
  ⟨fun _ _ => issue_eq_none_iff_held,
    fun _ _ _ h => (issue_cases h).2,
    fun _ t rq h => ⟨t.drive rq, issue_ready (step_ready h) rq⟩,
    fun s rq => ⟨s.afterReset.drive rq, issue_ready (unanswered_build s.params) rq⟩⟩

/-! ### R and STATUS -/

@[simp] theorem status_build (p : Params) : (State.build p).status = none := rfl
@[simp] theorem result_build (p : Params) : (State.build p).result = none := rfl

/-- Settles O5: reset builds the block anew with the parameters it has. -/
theorem resetLeaves : Obligations.ResetLeaves :=
  ⟨fun s => ⟨build_params s.params, result_build s.params, status_build s.params⟩,
    result_build Params.literal, status_build Params.literal⟩

/-- R202: no condition has the STATUS code of OK. -/
theorem condition_status_ne_ok (c : Condition) : c.status ≠ 0b00#2 := by
  cases c <;> decide

/-- R21, R201: R has a value exactly under STATUS = OK. -/
theorem result_eq_some_iff_status_ok (r : Response) : (∃ v, r.result = some v) ↔ r.status = 0b00#2 := by
  cases r with
  | ok v => exact iff_of_true ⟨v, rfl⟩ rfl
  | raised c => exact iff_of_false (fun ⟨_, h⟩ => Option.some_ne_none _ h.symm) (condition_status_ne_ok c)

/-- Settles O7: the codes are R21's table as `Response.status` and `Condition.status` write it, and R is defined under
the code of OK alone because no condition shares it. -/
theorem statusCodes : Obligations.StatusCodes :=
  ⟨fun _ => ⟨rfl, rfl⟩, rfl, rfl, rfl, result_eq_some_iff_status_ok⟩

/-! ### The invariant where no response has been given -/

/-- The invariant speaks of a response on the ports alone. -/
theorem inv_of_response_eq_none {s : State} (h : s.response = none) : Inv s :=
  fun _ hr => absurd (h.symm.trans hr) (Option.some_ne_none _).symm

theorem inv_build (p : Params) : Inv (State.build p) := inv_of_response_eq_none (build_response p)

/-- Settles O10: a block as built has given no response, and reset leaves a block as built. -/
theorem resetMeetsInvariant : Obligations.ResetMeetsInvariant :=
  ⟨inv_build Params.literal, fun s => inv_build s.params⟩

/-- Settles O11: issuing drives the ports, where no response stands until one is given. -/
theorem issueMeetsInvariant : Obligations.IssueMeetsInvariant := by
  intro s u rq h
  obtain ⟨-, rfl⟩ := issue_cases h
  exact inv_of_response_eq_none (drive_response s rq)

end Sys2Proof.Proofs
end

section
/-!
PROOFS. The statements of 20_memory.md: every request is answered rightly in one step, a repeated request is answered
alike, and requests are independent.
-/

namespace Sys2Proof.Proofs

open Sys2Proof.Machine Sys2Proof.Laws Sys2Proof.Safety

/-! ### The request of an operation (R60, R61) -/

/-- The request whose OP and A are those of operation i. -/
def requestOf (i : Instr) : Request := { op := opcodeOf i, a := i.operand }

theorem word_requestOf (i : Instr) : (requestOf i).word = encode i := rfl

/-- R60, R61: the decoder reads back the operation and the whole of A from the operation's word. -/
theorem decode_encode (i : Instr) : decode (encode i) = .instr i := by
  rw [← word_requestOf, decode_word]
  cases i <;> rfl

theorem respondTo_requestOf (p : Params) (i : Instr) : respondTo p (requestOf i) = respond p i := by
  apply respondTo_of_decode_instr
  rw [word_requestOf, decode_encode]

/-- R61, R72: a request is that of an operation, or its OP is reserved. -/
theorem request_cases (rq : Request) : (∃ i, rq = requestOf i) ∨ ReservedOp rq.op := by
  obtain ⟨op, a⟩ := rq
  have codes : ∀ c : OpCode, c = 0b000#3 ∨ c = 0b001#3 ∨ c = 0b010#3 ∨ c = 0b100#3 ∨ c = 0b101#3 ∨ c = 0b110#3 ∨
      c = 0b011#3 ∨ c = 0b111#3 := by decide
  obtain rfl | rfl | rfl | rfl | rfl | rfl | h := codes op
  · exact .inl ⟨.enc16 a, rfl⟩
  · exact .inl ⟨.enc32 a, rfl⟩
  · exact .inl ⟨.enc48 a, rfl⟩
  · exact .inl ⟨.dec16 a, rfl⟩
  · exact .inl ⟨.dec32 a, rfl⟩
  · exact .inl ⟨.dec48 a, rfl⟩
  · exact .inr h

theorem not_reservedOp_requestOf (i : Instr) : ¬ReservedOp (requestOf i).op := by
  cases i <;> simp [ReservedOp, requestOf, opcodeOf]

/-- R203: a reserved OP is answered without examining A. -/
theorem respondTo_reservedOp {rq : Request} (h : ReservedOp rq.op) (p : Params) :
    respondTo p rq = .raised .illegalOperation := by
  have hd : decode rq.word = .reservedOp rq.op := by
    rw [decode_word]
    obtain h | h := h <;> rw [h] <;> rfl
  simp only [respondTo, hd]

/-! ### The operand-width check (R62, R204) -/

theorem wideOperand_requestOf {i : Instr} : WideOperand (requestOf i) ↔ i.operand >>> i.operandBits ≠ 0 := by
  cases i <;> exact Iff.rfl

/-- R73: no bit of ENC48's operand is required to be zero. -/
theorem not_wideOperand_enc48 (a : PortWord) : ¬WideOperand (requestOf (.enc48 a)) :=
  fun h => wideOperand_requestOf.mp h (BitVec.ushiftRight_eq_zero le_rfl)

/-- The check raises its condition exactly where it applies, so a guarded response is right if the response behind the
guard is right for every narrow operand. -/
theorem rightResponse_guardOperand {i : Instr} {r : Response}
    (h : ¬WideOperand (requestOf i) → RightResponse (requestOf i) r) :
    RightResponse (requestOf i) (guardOperand i.operandBits i.operand r) := by
  by_cases hw : WideOperand (requestOf i)
  · rw [guardOperand_wide (wideOperand_requestOf.mp hw)]
    exact ⟨not_reservedOp_requestOf i, hw⟩
  · rw [guardOperand_narrow (not_not.mp (mt wideOperand_requestOf.mpr hw))]
    exact h hw

/-! ### The encoders' responses -/

/-- The encoder of a width (R61). -/
def encoder : Width → PortWord → Instr
  | .w16 => .enc16
  | .w32 => .enc32
  | .w48 => .enc48

/-- R68, R205: the exponent field is all ones exactly where the pattern has no value. -/
theorem nonFiniteOperand_encoder (w : Width) (a : PortWord) :
    NonFiniteOperand (requestOf (encoder w a)) ↔ nativeQ w.fmt.expBits w.fmt.fracBits w.fmt.bias a = none := by
  rw [nativeQ_eq_none, expField_eq]
  cases w <;>
    simp [NonFiniteOperand, requestOf, encoder, opcodeOf, Instr.operand, Width.fmt, Fmt.expBits, Fmt.fracBits,
      ← BitVec.toNat_inj]

/-- R63: a word zero-extended to the port has no bit above its own width. -/
theorem setWidth_ushiftRight_self {n : ℕ} (x : BitVec n) : (x.setWidth 64 : PortWord) >>> n = 0 := by
  apply BitVec.eq_of_getLsbD_eq
  intro i hi
  simp [BitVec.getLsbD_of_ge]

theorem encodeFinite_ushiftRight (w : Width) (a : PortWord) (p : Params) (x : Scaled) (s : Bool) :
    encodeFinite w p x s >>> resultWidth (requestOf (encoder w a)).op = 0 := by
  by_cases hx : x.num = 0
  · rw [encodeFinite, if_pos hx]
    exact BitVec.zero_ushiftRight
  · rw [encodeFinite, if_neg hx]
    cases w <;> exact setWidth_ushiftRight_self _

theorem rightResponse_encodeResponse (w : Width) (p : Params) (a : PortWord)
    (hw : ¬WideOperand (requestOf (encoder w a))) :
    RightResponse (requestOf (encoder w a)) (encodeResponse w p a) := by
  have hop := not_reservedOp_requestOf (encoder w a)
  have hfin := nonFiniteOperand_encoder w a
  cases hq : nativeQ w.fmt.expBits w.fmt.fracBits w.fmt.bias a with
  | none =>
    rw [encodeResponse_nonFinite hq]
    exact ⟨hop, hw, hfin.mpr hq⟩
  | some q =>
    obtain ⟨x, -, -, hr⟩ := encodeResponse_finite (p := p) hq
    have hnf : ¬NonFiniteOperand (requestOf (encoder w a)) := by simp [hfin, hq]
    rw [hr]
    exact ⟨hop, hw, hnf, encodeFinite_ushiftRight w a p x _⟩

/-! ### The decoders' responses -/

/-- The decoder of a width (R61). -/
def decoder : Width → PortWord → Instr
  | .w16 => .dec16
  | .w32 => .dec32
  | .w48 => .dec48

/-- R155: a decoder accepts every word. -/
theorem not_nonFiniteOperand_decoder (w : Width) (a : PortWord) : ¬NonFiniteOperand (requestOf (decoder w a)) := by
  cases w <;> simp [NonFiniteOperand, requestOf, decoder, opcodeOf]

theorem resultWidth_decoder (w : Width) (a : PortWord) :
    resultWidth (requestOf (decoder w a)).op = w.fmt.signIndex + 1 := by
  cases w <;> rfl

theorem rightResponse_toIeee (w : Width) (v : Scaled) (a : PortWord)
    (hw : ¬WideOperand (requestOf (decoder w a))) :
    RightResponse (requestOf (decoder w a)) (.ok (toIeee w.fmt v)) := by
  have hr : toIeee w.fmt v >>> resultWidth (requestOf (decoder w a)).op = 0 := by
    rw [resultWidth_decoder, toIeee_shiftRight]
  exact ⟨not_reservedOp_requestOf _, hw, not_nonFiniteOperand_decoder w a, hr⟩

/-! ### Every response is right -/

theorem rightResponse_respond (p : Params) (i : Instr) : RightResponse (requestOf i) (respond p i) := by
  cases i with
  | enc16 a => exact rightResponse_guardOperand (rightResponse_encodeResponse .w16 p a)
  | enc32 a => exact rightResponse_guardOperand (rightResponse_encodeResponse .w32 p a)
  | enc48 a => exact rightResponse_encodeResponse .w48 p a (not_wideOperand_enc48 a)
  | dec16 a => exact rightResponse_guardOperand (rightResponse_toIeee .w16 _ a)
  | dec32 a => exact rightResponse_guardOperand (rightResponse_toIeee .w32 _ a)
  | dec48 a => exact rightResponse_guardOperand (rightResponse_toIeee .w48 _ a)

theorem rightResponse_respondTo (p : Params) (rq : Request) : RightResponse rq (respondTo p rq) := by
  obtain ⟨i, rfl⟩ | h := request_cases rq
  · rw [respondTo_requestOf]
    exact rightResponse_respond p i
  · rw [respondTo_reservedOp h]
    exact h

/-- Settles O12: a step gives the request on the ports `respondTo` of it, which is right for every request. -/
theorem everyRequestAnswered : Obligations.EveryRequestAnswered :=
  fun s rq hr => ⟨respondTo s.params rq, step_some hr, rightResponse_respondTo s.params rq⟩

/-! ### Repeated and independent requests -/

/-- R45: a step does not read the response on the ports, and replaces it. -/
theorem step_answered {s : State} {rq : Request} (hr : s.request = some rq) (r : Response) :
    step (s.answered r) = .next (s.answered (respondTo s.params rq)) := by
  rw [step_some (s := s.answered r) hr, answered_answered, answered_params]

/-- Settles O15: an idle step leaves an idle state, and an answered request is answered the same again. -/
theorem repeatedRequest : Obligations.RepeatedRequest := by
  intro s t h
  obtain ⟨-, rfl⟩ | ⟨rq, hr, rfl⟩ := step_cases h
  · exact h
  · exact step_answered hr _

/-- R49: what was answered before is not in the parameters, and nothing else reaches a response. -/
theorem serve_eq_map {s : State} (h : s.unanswered = false) (rqs : List Request) :
    s.serve rqs = rqs.map (State.build s.params).responseTo := by
  induction rqs generalizing s with
  | nil => exact serve_nil s
  | cons rq rqs ih =>
    rw [serve_cons h, ih (unanswered_answered _ _), List.map_cons, responseTo_eq (unanswered_build s.params)]
    rfl

/-- Settles O16: serving a list is mapping a function of the request and the parameters over it. -/
theorem requestsIndependent : Obligations.RequestsIndependent := by
  intro s h
  refine ⟨serve_eq_map h, fun rqs rqs' hp => ?_⟩
  rw [serve_eq_map h, serve_eq_map h]
  exact hp.map _

end Sys2Proof.Proofs
end

section
/-!
PROOFS. The statements of 30_encoding.md: decoding and encoding of requests, the invariant over a step, the assembler
form, and the inputs at which P_TIES changes an encoder's word.
-/

namespace Sys2Proof.Proofs

open Sys2Proof.Machine Sys2Proof.Laws Sys2Proof.Safety

/-! ### Request words (R60, R61, R72) -/

/-- R60: a request word is its OP above its A. -/
theorem word_ofWord (w : RequestWord) : (Request.ofWord w).word = w :=
  (BitVec.extractLsb'_append_extractLsb'_eq_extractLsb' rfl).trans BitVec.extractLsb'_eq_self

/-- R72: a reserved OP is rejected by its name. -/
theorem decode_word_reservedOp {rq : Request} (h : ReservedOp rq.op) : decode rq.word = .reservedOp rq.op := by
  rw [decode_word]
  obtain h | h := h <;> rw [h] <;> rfl

/-- Every request word is the word of an operation, or is rejected for its reserved OP. -/
theorem requestWord_cases (w : RequestWord) :
    (∃ i, w = encode i) ∨ ReservedOp (opField w) ∧ decode w = .reservedOp (opField w) := by
  obtain ⟨rq, rfl⟩ : ∃ rq : Request, w = rq.word := ⟨_, (word_ofWord w).symm⟩
  rw [opField_word]
  obtain ⟨i, rfl⟩ | h := request_cases rq
  · exact .inl ⟨i, word_requestOf i⟩
  · exact .inr ⟨h, decode_word_reservedOp h⟩

theorem encode_of_decode {w : RequestWord} {i : Instr} (h : decode w = .instr i) : encode i = w := by
  obtain ⟨j, rfl⟩ | ⟨-, hd⟩ := requestWord_cases w
  · rw [decode_encode] at h
    cases h
    rfl
  · rw [hd] at h
    cases h

theorem not_reservedOp_encode (i : Instr) : ¬ReservedOp (opField (encode i)) := by
  rw [← word_requestOf, opField_word]
  exact not_reservedOp_requestOf i

theorem reservedOp_iff_decode (w : RequestWord) : ReservedOp (opField w) ↔ ∃ op, decode w = .reservedOp op := by
  obtain ⟨i, rfl⟩ | ⟨hr, hd⟩ := requestWord_cases w
  · simp [not_reservedOp_encode, decode_encode]
  · exact iff_of_true hr ⟨_, hd⟩

/-- Settles O4: every word is an operation's own word, which decodes to that operation, or has a reserved OP. -/
theorem decodeEncodeAgree : Obligations.DecodeEncodeAgree :=
  ⟨decode_encode, fun _ _ => encode_of_decode, reservedOp_iff_decode⟩

/-- Settles O3: six of the words are `encode` of the operation the table names, and two are words of a reserved OP. -/
theorem wordsOfEachOperation : Obligations.WordsOfEachOperation :=
  ⟨decode_encode (.enc16 0x4A33#64), decode_encode (.enc32 0x40A77CEE#64),
    decode_encode (.enc48 0xBFF0000000000000#64), decode_encode (.dec16 0x6344#64),
    decode_encode (.dec32 0xAC418903#64), decode_encode (.dec48 0x9B781202AEEF#64),
    decode_word_reservedOp (rq := { op := 0b011#3, a := 0 }) (.inl rfl),
    decode_word_reservedOp (rq := { op := 0b111#3, a := 0xFFFFFFFFFFFFFFFF#64 }) (.inr rfl)⟩

/-! ### The invariant over a step -/

theorem inv_answered {s : State} {rq : Request} {r : Response} (hr : s.request = some rq) (h : RightResponse rq r) :
    Inv (s.answered r) := by
  intro r' hr'
  rw [answered_response] at hr'
  cases hr'
  exact ⟨rq, hr, h⟩

/-- Settles O9: an idle step leaves the state it found, and the response a step gives is right for its request. -/
theorem stepKeepsInvariant : Obligations.StepKeepsInvariant := by
  intro s t hs h
  obtain ⟨-, rfl⟩ | ⟨rq, hr, rfl⟩ := step_cases h
  · exact hs
  · exact inv_answered hr (rightResponse_respondTo s.params rq)

/-! ### Assembler lines (R76) -/

section
variable (answers : List Response) (m : Mnemonic)

theorem assemble_hex {n : ℕ} (h : n < 2 ^ 64) :
    (AsmLine.line m (.hex n)).assemble answers = some { op := m.op, a := BitVec.ofNat 64 n } := by
  rw [AsmLine.assemble, AsmOperand.port, if_pos h]
  rfl

theorem assemble_hex_wide {n : ℕ} (h : 2 ^ 64 ≤ n) : (AsmLine.line m (.hex n)).assemble answers = none := by
  rw [AsmLine.assemble, AsmOperand.port, if_neg (not_lt.mpr h)]
  rfl

theorem assemble_result (k : ℕ) :
    (AsmLine.line m (.result (k + 1))).assemble answers =
      (answers[k]?.bind Response.result).map fun a => { op := m.op, a := a } := rfl

theorem assemble_decimal_decoder (d : Decimal) (h : m.nativeFmt = none) :
    (AsmLine.line m (.decimal d)).assemble answers = none := by
  rw [AsmLine.assemble, AsmOperand.port, h]
  rfl

/-- R76: an encoder's literal is the pattern nearest to its exact value in the encoder's native format. -/
theorem assemble_decimal_encoder (d : Decimal) {f : Fmt} (h : m.nativeFmt = some f) :
    (AsmLine.line m (.decimal d)).assemble answers =
      some { op := m.op, a := BitVec.ofInt 64 (toNativeQ f.expBits f.fracBits f.bias
        ((if d.negative then -1 else 1) * d.digits * 10 ^ d.exponent)) } := by
  rw [AsmLine.assemble, AsmOperand.port, h, Option.map_some, nearest_eq]
  rfl

end

theorem assemble_result_some {answers : List Response} {k : ℕ} {a : PortWord} (h : answers[k]? = some (.ok a))
    (m : Mnemonic) : (AsmLine.line m (.result (k + 1))).assemble answers = some { op := m.op, a := a } := by
  rw [assemble_result, h]
  rfl

/-- R201: a step that is missing, or that raised a condition, has no R. -/
theorem assemble_result_none {answers : List Response} {k : ℕ} (h : ∀ v, answers[k]? ≠ some (.ok v)) (m : Mnemonic) :
    (AsmLine.line m (.result (k + 1))).assemble answers = none := by
  rw [assemble_result, Option.map_eq_none_iff, Option.bind_eq_none_iff]
  rintro (v | c) hr
  · exact absurd hr (h v)
  · rfl

/-- Settles O50: the four kinds of operand one by one, and each mnemonic's request is its operation's. -/
theorem assembledLine : Obligations.AssembledLine := by
  intro answers n k a
  refine ⟨fun m => ⟨fun hn => ?_, assemble_hex_wide answers m, fun h => assemble_result_some h m,
      fun h => assemble_result_none h m⟩,
    decode_encode (.enc16 a), decode_encode (.enc32 a), decode_encode (.enc48 a),
    decode_encode (.dec16 a), decode_encode (.dec32 a), decode_encode (.dec48 a)⟩
  exact ⟨_, assemble_hex answers m hn, rfl, Nat.mod_eq_of_lt hn⟩

/-- Settles O51: an encoder's mnemonic has a native format, in which `Decimal.nearest` is to_ieee of the exact value; a
decoder's has none. -/
theorem decimalLiteral : Obligations.DecimalLiteral := by
  intro answers d v
  refine ⟨assemble_decimal_encoder answers .enc16 d (f := .binary16) rfl,
    assemble_decimal_encoder answers .enc32 d (f := .binary32) rfl,
    assemble_decimal_encoder answers .enc48 d (f := .binary64) rfl, ?_⟩
  rintro m (rfl | rfl | rfl) <;> exact assemble_decimal_decoder answers _ d rfl

/-! ### Ties (R104, R116) -/

theorem isTie_abs {y : ℚ} : IsTie |y| ↔ IsTie y := by
  rw [IsTie, IsTie, abs_abs]

theorem not_isTie_of_abs_eq_natCast {y : ℚ} {n : ℕ} (h : |y| = n) : ¬IsTie y := by
  simp [IsTie, h]

section
variable {y : ℚ} {n k : ℕ}

/-- A magnitude held in units of 2^−(k+1) is a tie exactly when its k + 1 fraction bits are 10…0. -/
theorem isTie_iff_mod (h : |y| = n / 2 ^ (k + 1)) : IsTie y ↔ n % 2 ^ (k + 1) = 2 ^ k := by
  have hd : (2 : ℚ) ^ (k + 1) = ((2 ^ (k + 1) : ℕ) : ℚ) := by push_cast; rfl
  have hhalf : (1 / 2 : ℚ) = ((2 ^ k : ℕ) : ℚ) / ((2 ^ (k + 1) : ℕ) : ℚ) := by
    push_cast
    field_simp
    exact pow_succ' 2 k
  rw [IsTie, h, hd, ← Int.fract, Int.fract_div_natCast_eq_div_natCast_mod, hhalf,
    div_left_inj' (by positivity), Nat.cast_inj]

theorem floor_abs_eq_div (h : |y| = n / 2 ^ (k + 1)) : ⌊|y|⌋ = (n / 2 ^ (k + 1) : ℕ) := by
  rw [h]
  exact_mod_cast Rat.floor_natCast_div_natCast n (2 ^ (k + 1))

/-- A tie above an even integer has one more 0 bit above the fraction bits. -/
theorem isTie_and_even_floor_iff_mod (h : |y| = n / 2 ^ (k + 1)) :
    IsTie y ∧ Even ⌊|y|⌋ ↔ n % 2 ^ (k + 2) = 2 ^ k := by
  have hmod : n % 2 ^ (k + 2) = n % 2 ^ (k + 1) + 2 ^ (k + 1) * (n / 2 ^ (k + 1) % 2) := Nat.mod_mul
  have hpow : 2 ^ (k + 1) = 2 * 2 ^ k := pow_succ' 2 k
  have hpos : 0 < 2 ^ k := by positivity
  rw [isTie_iff_mod h, floor_abs_eq_div h, Int.even_coe_nat, Nat.even_iff, hmod]
  obtain h0 | h1 := Nat.mod_two_eq_zero_or_one (n / 2 ^ (k + 1))
  · simp [h0]
  · rw [h1]
    omega

end

/-! ### Where P_TIES changes an encoder's word -/

theorem getElem_ofInt_zero {n : ℕ} (hn : 0 < n) (m : ℤ) : (BitVec.ofInt n m)[0] = decide (¬Even m) := by
  have hdvd : (2 : ℤ) ∣ ((2 ^ n : ℕ) : ℤ) := by exact_mod_cast dvd_pow_self 2 hn.ne'
  have hnn : 0 ≤ m % ((2 ^ n : ℕ) : ℤ) := Int.emod_nonneg _ (by positivity)
  have hmod : m % ((2 ^ n : ℕ) : ℤ) % 2 = m % 2 := Int.emod_emod_of_dvd m hdvd
  rw [← BitVec.getLsbD_eq_getElem, BitVec.getLsbD, Nat.testBit_zero, BitVec.toNat_ofInt, decide_eq_decide,
    Int.even_iff]
  omega

/-- Where a width's word holds the lowest bit of its mantissa (R64 to R66). -/
def mantissaLsb : Width → ℕ
  | .w16 => 6
  | .w32 => 8
  | .w48 => 0

/-- Where a width's word holds the lowest bit of its exponent (R64 to R66). -/
def exponentLsb : Width → ℕ
  | .w16 => 0
  | .w32 => 0
  | .w48 => 16

theorem packWord_mantissaLsb (w : Width) (m e : ℤ) (s : Bool) :
    (packWord w m e s).getLsbD (mantissaLsb w) = decide (¬Even m) := by
  cases w with
  | w16 => simp [packWord, pack16, mantissaLsb, getElem_ofInt_zero]
  | w32 => simp [packWord, pack32, mantissaLsb, getElem_ofInt_zero]
  | w48 => simp [packWord, pack48, mantissaLsb, getElem_ofInt_zero]

theorem packWord_exponentLsb (w : Width) (m e : ℤ) (s : Bool) :
    (packWord w m e s).getLsbD (exponentLsb w) = decide (¬Even e) := by
  cases w with
  | w16 => simp [packWord, pack16, exponentLsb, getElem_ofInt_zero]
  | w32 => simp [packWord, pack32, exponentLsb, getElem_ofInt_zero]
  | w48 => simp [packWord, pack48, exponentLsb, getElem_ofInt_zero]

theorem parity_of_packWord_eq {w : Width} {m e m' e' : ℤ} {s s' : Bool}
    (h : packWord w m e s = packWord w m' e' s') : (Even m ↔ Even m') ∧ (Even e ↔ Even e') := by
  have hm : decide (¬Even m) = decide (¬Even m') := by
    rw [← packWord_mantissaLsb w m e s, h, packWord_mantissaLsb]
  have he : decide (¬Even e) = decide (¬Even e') := by
    rw [← packWord_exponentLsb w m e s, h, packWord_exponentLsb]
  exact ⟨not_iff_not.mp (decide_eq_decide.mp hm), not_iff_not.mp (decide_eq_decide.mp he)⟩

/-- Rounded mantissas of unlike parity give unlike words whatever the boundary: the correction of one of them alone
moves its exponent by 1. -/
theorem packWord_ne_of_parity {w : Width} {b m0 m0' e0 m e m' e' : ℤ} {s : Bool} (h : Corrected b m0 e0 m e)
    (h' : Corrected b m0' e0 m' e') (hpar : ¬(Even m0 ↔ Even m0')) : packWord w m e s ≠ packWord w m' e' s := by
  intro heq
  obtain ⟨hm, he⟩ := parity_of_packWord_eq heq
  by_cases hb : m0 = b <;> by_cases hb' : m0' = b
  · exact hpar (by rw [hb, hb'])
  · rw [(h.2 hb).1, (h'.1 hb').2, Int.even_add_one] at he
    exact not_iff_self he
  · rw [(h.1 hb).2, (h'.2 hb').1, Int.even_add_one] at he
    exact iff_not_self he
  · rw [(h.1 hb).1, (h'.1 hb').1] at hm
    exact hpar hm

/-- Where the two settings round to different mantissas, these lie 1 apart. -/
theorem roundQ_parity_ne {y : ℚ} (h : roundQ .away y ≠ roundQ .even y) :
    ¬(Even (roundQ .away y) ↔ Even (roundQ .even y)) := by
  obtain ⟨hiff, habs⟩ := roundQ_away_even y
  obtain ⟨ht, he⟩ := hiff.mp h
  rw [← even_abs (a := roundQ .away y), habs ht he, Int.even_add_one, even_abs]
  exact not_iff_self

@[simp] theorem boundary_ties (w : Width) (p : Params) (t : Ties) :
    w.boundary { p with ties := t } = w.boundary p := by
  cases w <;> rfl

/-- The word of a finite operand depends on P_TIES through its rounded mantissa alone. -/
theorem encodeFinite_ties_ne_iff (w : Width) (p : Params) (x : Scaled) (s : Bool) :
    encodeFinite w { p with ties := .away } x s ≠ encodeFinite w { p with ties := .even } x s ↔
      roundQ .away (scaledQ w.fracBits (valueQ x)) ≠ roundQ .even (scaledQ w.fracBits (valueQ x)) := by
  by_cases hx : x.num = 0
  · have hy : scaledQ w.fracBits (valueQ x) = ((0 : ℤ) : ℚ) := by
      rw [valueQ_eq_zero.mpr hx, scaledQ, zero_mul, Int.cast_zero]
    rw [hy, roundQ_intCast, roundQ_intCast, encodeFinite, encodeFinite, if_pos hx, if_pos hx]
    simp
  · simp only [encodeFinite, if_neg hx]
    constructor
    · refine mt fun heq => ?_
      simp only [mantissaExponent, roundedMantissa_eq w _ hx, boundary_ties, heq]
    · intro hne
      exact packWord_ne_of_parity (mantissaExponent_corrected w { p with ties := .away } hx)
        (mantissaExponent_corrected w { p with ties := .even } hx) (roundQ_parity_ne hne)

/-- R62: an encoder whose operand is narrow answers what ENCODE_W of R100 gives. -/
theorem respond_encoder {w : Width} {a : PortWord} (hw : a >>> (encoder w a).operandBits = 0) (p : Params) :
    respond p (encoder w a) = encodeResponse w p a := by
  cases w with
  | w16 => exact guardOperand_narrow hw _
  | w32 => exact guardOperand_narrow hw _
  | w48 => rfl

section
variable {w : Width} {a : PortWord} {x : ℚ}

/-- R104, R116: the two settings of P_TIES give a finite operand different words exactly at a tie above an even
integer. -/
theorem encoder_answersUnderTies (hw : a >>> (encoder w a).operandBits = 0)
    (hx : nativeQ w.fmt.expBits w.fmt.fracBits w.fmt.bias a = some x) (s : State) :
    ∃ r r', AnswersUnderTies (encoder w a) s (.ok r) (.ok r') ∧
      (r ≠ r' ↔ IsTie (scaledQ w.fracBits x) ∧ Even ⌊|scaledQ w.fracBits x|⌋) := by
  obtain ⟨v, hv, rfl⟩ := finite_of_nativeQ hx
  have hr : ∀ p, respond p (encoder w a) = .ok (encodeFinite w p v (signBit w.fmt a)) := fun p => by
    rw [respond_encoder hw, encodeResponse, hv]
  have h := answersUnderTies (encoder w a) s
  rw [hr, hr] at h
  exact ⟨_, _, h, (encodeFinite_ties_ne_iff w s.params v _).trans (roundQ_away_even _).1⟩

/-- Off a tie both settings give one word. -/
theorem encoder_answersUnderTies_of_not_isTie (hw : a >>> (encoder w a).operandBits = 0)
    (hx : nativeQ w.fmt.expBits w.fmt.fracBits w.fmt.bias a = some x) (ht : ¬IsTie (scaledQ w.fracBits x))
    (s : State) : ∃ r, AnswersUnderTies (encoder w a) s (.ok r) (.ok r) := by
  obtain ⟨r, r', h, hne⟩ := encoder_answersUnderTies hw hx s
  obtain rfl : r = r' := not_not.mp (mt hne.mp (fun h' => ht h'.1))
  exact ⟨r, h⟩

end

/-! ### The magnitude that an encoder rounds (R68, R103, R104) -/

theorem exponentQ_of_abs_eq {x : ℚ} {n : ℕ} {k : ℤ} (hn : n ≠ 0) (h : |x| = n * 2 ^ k) :
    exponentQ x = Nat.clog 2 n + k := by
  have hexp : exponentQ (n : ℚ) = Nat.clog 2 n := by
    rw [exponentQ, Nat.abs_cast, Int.clog_natCast]
  obtain ⟨hlo, hhi⟩ := exponentQ_spec (Nat.cast_ne_zero (R := ℚ).mpr hn)
  rw [hexp, Nat.abs_cast] at hlo hhi
  have hk := two_zpow_pos k
  apply exponentQ_eq_of
  · rw [h, add_sub_right_comm, zpow_add₀ two_ne_zero]
    exact mul_lt_mul_of_pos_right hlo hk
  · rw [h, zpow_add₀ two_ne_zero]
    exact mul_le_mul_of_nonneg_right hhi hk.le

theorem abs_scaledQ_of_abs_eq {x : ℚ} {n : ℕ} {k : ℤ} (hn : n ≠ 0) (h : |x| = n * 2 ^ k) (f : ℤ) :
    |scaledQ f x| = n * 2 ^ (f - Nat.clog 2 n) := by
  rw [scaledQ, exponentQ_of_abs_eq hn h, abs_mul, h, abs_of_pos (two_zpow_pos _), mul_assoc,
    ← zpow_add₀ two_ne_zero]
  congr 2
  ring

section
variable {f : Fmt} {a : PortWord} {x : ℚ}

theorem abs_of_normal (hx : nativeQ f.expBits f.fracBits f.bias a = some x) (he : expField f a ≠ 0) :
    |x| = (2 ^ f.fracBits + fracField f a : ℕ) * 2 ^ ((expField f a : ℤ) - f.bias - f.fracBits) := by
  simp only [nativeQ, ← expField_eq, ← fracField_eq, if_neg he] at hx
  split at hx
  · cases hx
  · cases hx
    have hpos : (0 : ℚ) ≤ 2 ^ f.fracBits + fracField f a := by positivity
    rw [abs_mul, abs_mul, abs_of_pos (two_zpow_pos _), abs_of_nonneg hpos]
    split <;> simp

theorem abs_of_subnormal (hx : nativeQ f.expBits f.fracBits f.bias a = some x) (he : expField f a = 0) :
    |x| = fracField f a * 2 ^ (1 - (f.bias : ℤ) - f.fracBits) := by
  simp only [nativeQ, ← expField_eq, ← fracField_eq, he] at hx
  split at hx
  · cases hx
  · cases hx
    rw [abs_mul, abs_mul, abs_of_pos (two_zpow_pos _), Nat.abs_cast]
    split <;> simp

end

/-! ### The fields of a native operand (R68) -/

theorem expField_eq_zero_iff {f : Fmt} {a : PortWord} :
    expField f a = 0 ↔ a.extractLsb' f.fracBits f.expBits = 0 := by
  rw [expField_eq]
  exact BitVec.toNat_inj (y := 0)

theorem fracField_eq_zero_iff {f : Fmt} {a : PortWord} : fracField f a = 0 ↔ a.extractLsb' 0 f.fracBits = 0 := by
  rw [fracField_eq]
  exact BitVec.toNat_inj (y := 0)

theorem fracField_lt (f : Fmt) (a : PortWord) : fracField f a < 2 ^ f.fracBits := Nat.mod_lt _ (by positivity)

theorem fracField_mod {f : Fmt} {j : ℕ} (hj : j ≤ f.fracBits) (a : PortWord) :
    fracField f a % 2 ^ j = (a.extractLsb' 0 j).toNat := by
  rw [fracField, Nat.mod_mod_of_dvd _ (pow_dvd_pow 2 hj), BitVec.extractLsb'_toNat, Nat.shiftRight_zero]

/-- The low bits of a normal operand's significand are those of A. -/
theorem significand_mod {f : Fmt} {j : ℕ} (hj : j ≤ f.fracBits) (a : PortWord) :
    (2 ^ f.fracBits + fracField f a) % 2 ^ j = (a.extractLsb' 0 j).toNat := by
  rw [Nat.add_mod, Nat.mod_eq_zero_of_dvd (pow_dvd_pow 2 hj), zero_add, Nat.mod_mod, fracField_mod hj]

theorem clog_significand {p t : ℕ} (h0 : t ≠ 0) (ht : t < 2 ^ p) : Nat.clog 2 (2 ^ p + t) = p + 1 := by
  apply le_antisymm
  · exact Nat.clog_le_of_le_pow (by rw [pow_succ]; omega)
  · exact (Nat.lt_clog_iff_pow_lt one_lt_two).mpr (by omega)

theorem toNat_eq_two_pow_iff {i j : ℕ} (hij : i < j) (b : BitVec j) :
    b.toNat = 2 ^ i ↔ b = BitVec.ofNat j (2 ^ i) := by
  rw [← BitVec.toNat_inj, BitVec.toNat_ofNat, Nat.mod_eq_of_lt (Nat.pow_lt_pow_right one_lt_two hij)]

/-! ### The inputs of R116 -/

/-- The fraction bits of a native significand that a width's mantissa has not: of a normal input that is no power of two
the scaled magnitude has one more. -/
def excessBits (w : Width) : ℕ := w.fmt.fracBits - w.fracBits

theorem fracBits_add_excessBits (w : Width) : w.fracBits + excessBits w = w.fmt.fracBits := by
  cases w <;> rfl

theorem excessBits_add_two_le (w : Width) : excessBits w + 2 ≤ w.fmt.fracBits := by
  cases w <;> decide

section
variable {w : Width} {a : PortWord} {x : ℚ}

theorem abs_scaledQ_of_normal (hx : nativeQ w.fmt.expBits w.fmt.fracBits w.fmt.bias a = some x)
    (he : expField w.fmt a ≠ 0) (ht : fracField w.fmt a ≠ 0) :
    |scaledQ w.fracBits x| = (2 ^ w.fmt.fracBits + fracField w.fmt a : ℕ) / 2 ^ (excessBits w + 1) := by
  have hpow : (w.fracBits : ℤ) - (w.fmt.fracBits + 1 : ℕ) = -((excessBits w + 1 : ℕ) : ℤ) := by
    have := fracBits_add_excessBits w
    omega
  rw [abs_scaledQ_of_abs_eq (by positivity) (abs_of_normal hx he), clog_significand ht (fracField_lt _ a), hpow,
    zpow_neg, zpow_natCast, div_eq_mul_inv]

theorem abs_scaledQ_of_power (hx : nativeQ w.fmt.expBits w.fmt.fracBits w.fmt.bias a = some x)
    (he : expField w.fmt a ≠ 0) (ht : fracField w.fmt a = 0) : |scaledQ w.fracBits x| = 2 ^ w.fracBits := by
  rw [abs_scaledQ_of_abs_eq (by positivity) (abs_of_normal hx he), ht, add_zero, Nat.clog_pow _ _ one_lt_two,
    Nat.cast_pow, Nat.cast_ofNat, ← zpow_natCast, ← zpow_add₀ two_ne_zero, add_sub_cancel, zpow_natCast]

theorem abs_scaledQ_of_subnormal (hx : nativeQ w.fmt.expBits w.fmt.fracBits w.fmt.bias a = some x)
    (he : expField w.fmt a = 0) (ht : fracField w.fmt a ≠ 0) :
    |scaledQ w.fracBits x| = fracField w.fmt a * 2 ^ ((w.fracBits : ℤ) - Nat.clog 2 (fracField w.fmt a)) :=
  abs_scaledQ_of_abs_eq ht (abs_of_subnormal hx he) _

/-- R116: the ties of a normal input that is no power of two are told by the low bits of A. -/
theorem ties_of_normal (s : State) (hw : a >>> (encoder w a).operandBits = 0)
    (hx : nativeQ w.fmt.expBits w.fmt.fracBits w.fmt.bias a = some x)
    (he : a.extractLsb' w.fmt.fracBits w.fmt.expBits ≠ 0) (ht : a.extractLsb' 0 w.fmt.fracBits ≠ 0) :
    (IsTie (scaledQ w.fracBits x) ↔
      a.extractLsb' 0 (excessBits w + 1) = BitVec.ofNat (excessBits w + 1) (2 ^ excessBits w)) ∧
    ∃ r r', AnswersUnderTies (encoder w a) s (.ok r) (.ok r') ∧
      (r ≠ r' ↔ a.extractLsb' 0 (excessBits w + 2) = BitVec.ofNat (excessBits w + 2) (2 ^ excessBits w)) := by
  have hk := excessBits_add_two_le w
  have hy := abs_scaledQ_of_normal hx (mt expField_eq_zero_iff.mp he) (mt fracField_eq_zero_iff.mp ht)
  obtain ⟨r, r', h, hne⟩ := encoder_answersUnderTies hw hx s
  refine ⟨?_, r, r', h, hne.trans ?_⟩
  · rw [isTie_iff_mod hy, significand_mod (by omega), toNat_eq_two_pow_iff (by omega)]
  · rw [isTie_and_even_floor_iff_mod hy, significand_mod (by omega), toNat_eq_two_pow_iff (by omega)]

theorem ties_of_power (s : State) (hw : a >>> (encoder w a).operandBits = 0)
    (hx : nativeQ w.fmt.expBits w.fmt.fracBits w.fmt.bias a = some x)
    (he : a.extractLsb' w.fmt.fracBits w.fmt.expBits ≠ 0) (ht : a.extractLsb' 0 w.fmt.fracBits = 0) :
    |scaledQ w.fracBits x| = 2 ^ w.fracBits ∧ ∃ r, AnswersUnderTies (encoder w a) s (.ok r) (.ok r) := by
  have hy := abs_scaledQ_of_power hx (mt expField_eq_zero_iff.mp he) (fracField_eq_zero_iff.mpr ht)
  have hnat : |scaledQ w.fracBits x| = (2 ^ w.fracBits : ℕ) := by exact_mod_cast hy
  exact ⟨hy, encoder_answersUnderTies_of_not_isTie hw hx (not_isTie_of_abs_eq_natCast hnat) s⟩

/-- A subnormal whose fraction fits in the mantissa scales to an integer. -/
theorem not_isTie_of_small_subnormal (hx : nativeQ w.fmt.expBits w.fmt.fracBits w.fmt.bias a = some x)
    (he : expField w.fmt a = 0) (ht : fracField w.fmt a ≠ 0) (hle : fracField w.fmt a ≤ 2 ^ w.fracBits) :
    ¬IsTie (scaledQ w.fracBits x) := by
  obtain ⟨j, hj⟩ := Nat.exists_eq_add_of_le (Nat.clog_le_of_le_pow hle)
  have hy := abs_scaledQ_of_subnormal hx he ht
  have hexp : (w.fracBits : ℤ) - Nat.clog 2 (fracField w.fmt a) = (j : ℤ) := by omega
  rw [hexp, zpow_natCast] at hy
  exact not_isTie_of_abs_eq_natCast (n := fracField w.fmt a * 2 ^ j) (by exact_mod_cast hy)

end

/-- Settles O39: a normal significand that is no power of two is held in units of 2^−(k+1), and the k + 2 lowest of its
bits, which are those of A, tell the ties and the parity of the integer below. -/
theorem tiesOfNormalInputs : Obligations.TiesOfNormalInputs := by
  intro a s x
  refine ⟨ties_of_normal (w := .w16) s, ties_of_normal (w := .w32) s, ?_⟩
  exact ties_of_normal (w := .w48) s (BitVec.ushiftRight_eq_zero le_rfl)

/-! ### Subnormals -/

section
variable {a : PortWord} {x : ℚ}

/-- A 16-bit subnormal above 512 scales to half its fraction field. -/
theorem abs_scaledQ_of_large_subnormal16 (hx : nativeQ 5 10 15 a = some x) (he : expField .binary16 a = 0)
    (ht : 512 < fracField .binary16 a) : |scaledQ 9 x| = fracField .binary16 a / 2 ^ (0 + 1) := by
  have hlt : fracField .binary16 a < 2 ^ 10 := fracField_lt .binary16 a
  have hclog : Nat.clog 2 (fracField .binary16 a) = 10 :=
    le_antisymm (Nat.clog_le_of_le_pow hlt.le) ((Nat.lt_clog_iff_pow_lt one_lt_two).mpr ht)
  have hy : |scaledQ 9 x| = fracField .binary16 a * 2 ^ ((9 : ℤ) - Nat.clog 2 (fracField .binary16 a)) :=
    abs_scaledQ_of_subnormal (w := .w16) hx he (Nat.ne_zero_of_lt ht)
  rw [hy, hclog, div_eq_mul_inv]
  norm_num

theorem ties_of_subnormal16 (s : State) (hw : a >>> 16 = 0) (hx : nativeQ 5 10 15 a = some x)
    (he : expField .binary16 a = 0) (ht : fracField .binary16 a ≠ 0) :
    (IsTie (scaledQ 9 x) ↔ Odd (fracField .binary16 a) ∧ 512 < fracField .binary16 a) ∧
    ∃ r r', AnswersUnderTies (.enc16 a) s (.ok r) (.ok r') ∧
      (r ≠ r' ↔ a.extractLsb' 0 2 = 0b01#2 ∧ 512 < fracField .binary16 a) := by
  obtain ⟨r, r', h, hne⟩ : ∃ r r', AnswersUnderTies (.enc16 a) s (.ok r) (.ok r') ∧
      (r ≠ r' ↔ IsTie (scaledQ 9 x) ∧ Even ⌊|scaledQ 9 x|⌋) := encoder_answersUnderTies (w := .w16) hw hx s
  rcases le_or_gt (fracField .binary16 a) 512 with hle | hgt
  · have hnt : ¬IsTie (scaledQ 9 x) := not_isTie_of_small_subnormal (w := .w16) hx he ht hle
    exact ⟨iff_of_false hnt fun h' => hle.not_gt h'.2, r, r', h,
      hne.trans (iff_of_false (fun h' => hnt h'.1) fun h' => hle.not_gt h'.2)⟩
  · have hy := abs_scaledQ_of_large_subnormal16 hx he hgt
    have hlow : fracField .binary16 a % 2 ^ 2 = 2 ^ 0 ↔ a.extractLsb' 0 2 = 0b01#2 := by
      rw [fracField_mod (by decide)]
      exact toNat_eq_two_pow_iff (by norm_num) _
    refine ⟨?_, r, r', h, ?_⟩
    · rw [isTie_iff_mod hy, and_iff_left hgt, Nat.odd_iff]
      rfl
    · rw [hne, isTie_and_even_floor_iff_mod hy, and_iff_left hgt, hlow]

theorem ties_of_subnormal32 (s : State) (hw : a >>> 32 = 0) (hx : nativeQ 8 23 127 a = some x)
    (he : expField .binary32 a = 0) (ht : fracField .binary32 a ≠ 0) :
    ¬IsTie (scaledQ 23 x) ∧ ∃ r, AnswersUnderTies (.enc32 a) s (.ok r) (.ok r) := by
  have hnt : ¬IsTie (scaledQ 23 x) :=
    not_isTie_of_small_subnormal (w := .w32) hx he ht (fracField_lt .binary32 a).le
  exact ⟨hnt, encoder_answersUnderTies_of_not_isTie (w := .w32) hw hx hnt s⟩

theorem ties_of_subnormal48 (s : State) (hx : nativeQ 11 52 1023 a = some x)
    (he : expField .binary64 a = 0) (ht : fracField .binary64 a ≠ 0) {y : ℚ}
    (hy : fracField .binary64 a * 2 ^ (39 - (Nat.clog 2 (fracField .binary64 a) : ℤ)) = y) :
    |scaledQ 39 x| = y ∧
    ∃ r r', AnswersUnderTies (.enc48 a) s (.ok r) (.ok r') ∧ (r ≠ r' ↔ IsTie y ∧ Even ⌊y⌋) := by
  have habs : |scaledQ 39 x| = y := (abs_scaledQ_of_subnormal (w := .w48) hx he ht).trans hy
  refine ⟨habs, ?_⟩
  rw [← habs, isTie_abs]
  exact encoder_answersUnderTies (w := .w48) (BitVec.ushiftRight_eq_zero le_rfl) hx s

end

/-- Settles O52: a power of two scales to 2^F, a 32-bit subnormal to an integer, a 16-bit one to an integer or to half
its fraction field; at 48 bits the statement's y is the scaled magnitude itself. -/
theorem tiesOfPowersAndSubnormals : Obligations.TiesOfPowersAndSubnormals := by
  intro a s x
  have h64 : a >>> 64 = 0 := BitVec.ushiftRight_eq_zero le_rfl
  refine ⟨ties_of_power (w := .w16) s, ties_of_power (w := .w32) s, ties_of_power (w := .w48) s h64, ?_, ?_, ?_⟩
  · intro hw hx he ht
    have hT := fracField_eq .binary16 a
    exact hT ▸ ties_of_subnormal16 s hw hx (expField_eq_zero_iff.mpr he) (mt fracField_eq_zero_iff.mp ht)
  · intro hw hx he ht
    exact ties_of_subnormal32 s hw hx (expField_eq_zero_iff.mpr he) (mt fracField_eq_zero_iff.mp ht)
  · intro hx he ht y
    exact ties_of_subnormal48 s hx (expField_eq_zero_iff.mpr he) (mt fracField_eq_zero_iff.mp ht)
      (by rw [fracField_eq]; rfl)

end Sys2Proof.Proofs
end

section
/-!
PROOFS. The statements of 40_encode.md: the three encoders of every operand, the facts of the exponent and the rounded
mantissa, the fields of the word, the tie rule, and the round trips whose word is the encoder's.
-/

namespace Sys2Proof.Proofs

open Sys2Proof.Machine Sys2Proof.Laws Sys2Proof.Safety

/-! ### What an encoder answers (R100) -/

section
variable {w : Width} {a : PortWord} (s : State)

theorem exec_encoder (hw : a >>> (encoder w a).operandBits = 0) :
    exec (encoder w a) s = .next (s.answered (encodeResponse w s.params a)) := by
  rw [exec_eq, respond_encoder hw]

/-- R204: a bit above the operand is reported before anything else. -/
theorem exec_encoder_wide (hw : a >>> (encoder w a).operandBits ≠ 0) :
    exec (encoder w a) s = .next (s.answered (.raised .illegalOperand)) := by
  rw [exec_eq]
  congr 2
  cases w with
  | w16 => exact guardOperand_wide hw _
  | w32 => exact guardOperand_wide hw _
  | w48 => exact absurd (BitVec.ushiftRight_eq_zero le_rfl) hw

theorem exec_encoder_nonFinite (hw : a >>> (encoder w a).operandBits = 0)
    (h : nativeQ w.fmt.expBits w.fmt.fracBits w.fmt.bias a = none) :
    exec (encoder w a) s = .next (s.answered (.raised .nonFiniteInput)) := by
  rw [exec_encoder s hw, encodeResponse_nonFinite h]

theorem exec_encoder_zero (hw : a >>> (encoder w a).operandBits = 0)
    (h : nativeQ w.fmt.expBits w.fmt.fracBits w.fmt.bias a = some 0) :
    exec (encoder w a) s = .next (s.answered (.ok 0)) := by
  rw [exec_encoder s hw, encodeResponse_zero h]

theorem exec_encoder_nonzero {x : ℚ} (hw : a >>> (encoder w a).operandBits = 0)
    (hx : nativeQ w.fmt.expBits w.fmt.fracBits w.fmt.bias a = some x) (h0 : x ≠ 0) :
    ∃ m e, Corrected (w.boundary s.params) (roundQ s.params.ties (scaledQ w.fracBits x)) (exponentQ x) m e ∧
      exec (encoder w a) s = .next (s.answered (.ok (packWord w m e (signBit w.fmt a)))) := by
  obtain ⟨m, e, hc, hr⟩ := encodeResponse_nonzero (p := s.params) hx h0
  exact ⟨m, e, hc, by rw [exec_encoder s hw, hr]⟩

end

theorem ushiftRight_64 (a : PortWord) : a >>> 64 = 0 := BitVec.ushiftRight_eq_zero le_rfl

/-- Settles O24: the four responses of `encodeResponse` behind the width check, with PACK_16 written as its fields. -/
theorem enc16Operation : Obligations.Enc16Operation := by
  intro a s
  refine ⟨exec_encoder_wide (w := .w16) s, exec_encoder_nonFinite (w := .w16) s, exec_encoder_zero (w := .w16) s,
    fun x hw hx h0 => ?_⟩
  obtain ⟨m, e, hc, hr⟩ := exec_encoder_nonzero (w := .w16) s hw hx h0
  rw [packWord, pack16_eq] at hr
  exact ⟨m, e, hc, hr⟩

/-- Settles O25: the same four responses, with PACK_32 written as its fields and the sign bit. -/
theorem enc32Operation : Obligations.Enc32Operation := by
  intro a s
  refine ⟨exec_encoder_wide (w := .w32) s, exec_encoder_nonFinite (w := .w32) s, exec_encoder_zero (w := .w32) s,
    fun x hw hx h0 => ?_⟩
  obtain ⟨m, e, hc, hr⟩ := exec_encoder_nonzero (w := .w32) s hw hx h0
  rw [packWord, pack32_eq] at hr
  exact ⟨m, e, hc, hr⟩

/-- Settles O26: ENC48 has no width check to pass (R73); PACK_48 is written as its fields and the sign bit. -/
theorem enc48Operation : Obligations.Enc48Operation := by
  intro a s
  have hw := ushiftRight_64 a
  refine ⟨exec_encoder_nonFinite (w := .w48) s hw, exec_encoder_zero (w := .w48) s hw, fun x hx h0 => ?_⟩
  obtain ⟨m, e, hc, hr⟩ := exec_encoder_nonzero (w := .w48) s hw hx h0
  rw [packWord, pack48_eq] at hr
  exact ⟨m, e, hc, hr⟩

/-! ### Zeros (R102) -/

theorem nativeQ_signedZero (f : Fmt) (s : Bool) : nativeQ f.expBits f.fracBits f.bias (packIeee f s 0 0) = some 0 := by
  have htop := fmt_top f
  rw [nativeQ_packIeee (by omega) (by positivity)]
  simp

theorem exec_encoder_signedZero (w : Width) (sg : Bool) (s : State) :
    exec (encoder w (packIeee w.fmt sg 0 0)) s = .next (s.answered (.ok 0)) := by
  refine exec_encoder_zero s ?_ (nativeQ_signedZero w.fmt sg)
  cases w <;> cases sg <;> rfl

/-- Settles O30: the two operands of each clause are the format's +0 and −0. -/
theorem zeroEncodesToZero : Obligations.ZeroEncodesToZero := by
  intro s
  refine ⟨?_, ?_, ?_⟩
  · rintro a (rfl | rfl)
    · exact exec_encoder_signedZero .w16 false s
    · exact exec_encoder_signedZero .w16 true s
  · rintro a (rfl | rfl)
    · exact exec_encoder_signedZero .w32 false s
    · exact exec_encoder_signedZero .w32 true s
  · rintro a (rfl | rfl)
    · exact exec_encoder_signedZero .w48 false s
    · exact exec_encoder_signedZero .w48 true s

/-! ### The exponent (R103) -/

/-- R68: a finite pattern is a significand of at most p + 1 bits at an exponent of its format. -/
theorem finite_range {f : Fmt} {b : PortWord} {x : Scaled} (h : ieeeValue f b = .finite x) :
    x.num.natAbs < 2 ^ (f.fracBits + 1) ∧ 1 - (f.bias : ℤ) - f.fracBits ≤ x.pow ∧ x.pow ≤ f.bias - f.fracBits := by
  have hT := fracField_lt f b
  have hX : expField f b < 2 ^ f.expBits := Nat.mod_lt _ (by positivity)
  have htop := fmt_top f
  have hbias := fmt_bias_pos f
  have habs : ∀ (sg : Bool) (n : ℕ), (signed sg n).natAbs = n := by
    intro sg n
    cases sg <;> simp [signed]
  rw [pow_succ]
  simp only [ieeeValue] at h
  split_ifs at h
  all_goals
    cases h
    rw [habs]
    dsimp only
    omega

theorem natCeilLog2_le {n k : ℕ} (hn : n ≠ 0) (h : n < 2 ^ k) : natCeilLog2 n ≤ k := by
  have hlt : 2 ^ natCeilLog2 n < 2 ^ (k + 1) := by
    have := (natCeilLog2_spec hn).2
    rw [pow_succ]
    omega
  exact Nat.lt_succ_iff.mp ((Nat.pow_lt_pow_iff_right one_lt_two).mp hlt)

theorem ceilLog2_range {f : Fmt} {b : PortWord} {x : Scaled} (hx : x.num ≠ 0) (h : ieeeValue f b = .finite x) :
    1 - (f.bias : ℤ) - f.fracBits ≤ x.ceilLog2 ∧ x.ceilLog2 ≤ f.bias + 1 := by
  obtain ⟨hn, hlo, hhi⟩ := finite_range h
  have := natCeilLog2_le (Int.natAbs_ne_zero.mpr hx) hn
  rw [Scaled.ceilLog2]
  omega

/-- Settles O31: e0 is the model's ceil_log2, and a finite pattern's significand and exponent bound it. -/
theorem exponentNormalisation : Obligations.ExponentNormalisation :=
  ⟨fun _ => ceilLog2_spec, fun _ _ hx => ⟨ceilLog2_range hx, ceilLog2_range hx, ceilLog2_range hx⟩⟩

theorem exponentQ_range {f : Fmt} {a : PortWord} {x : ℚ} (hx : nativeQ f.expBits f.fracBits f.bias a = some x)
    (h0 : x ≠ 0) : 1 - (f.bias : ℤ) - f.fracBits ≤ exponentQ x ∧ exponentQ x ≤ f.bias + 1 := by
  obtain ⟨v, hv, rfl⟩ := finite_of_nativeQ hx
  have hn : v.num ≠ 0 := mt valueQ_eq_zero.mpr h0
  rw [← ceilLog2_eq_exponentQ hn]
  exact ceilLog2_range hn hv

/-! ### The rounded mantissa (R104, R105) -/

/-- Settles O32: scaling and rounding agree with R104 over ℚ, where negation passes through both. -/
theorem roundingRule : Obligations.RoundingRule := by
  intro w t x hx
  have hneg : roundedMantissa w t { x with num := -x.num } = roundQ t (scaledQ w.fracBits (-valueQ x)) := by
    rw [← valueQ_negate]
    exact roundedMantissa_eq w t (neg_ne_zero.mpr hx)
  refine ⟨roundedMantissa_eq w t hx, ?_⟩
  rw [hneg, roundedMantissa_eq w t hx, scaledQ_neg, roundQ_neg]

theorem one_le_fracBits (w : Width) : 1 ≤ w.fracBits := by cases w <;> decide

/-- Settles O33: the range of y and, as 2^F is even, of its rounding. -/
theorem roundedMantissaRange : Obligations.RoundedMantissaRange := by
  intro w t x hx
  have hq : valueQ x ≠ 0 := mt valueQ_eq_zero.mp hx
  rw [roundedMantissa_eq w t hx]
  exact ⟨scaledQ_range hq w.fracBits, roundQ_scaledQ_range hq t w.fracBits (one_le_fracBits w)⟩

/-! ### The fields of a word (R64 to R66) -/

/-- The width of a word's exponent field. -/
def exponentBits : Width → ℕ
  | .w16 => 6
  | .w32 => 8
  | .w48 => 8

theorem exponentBits_pos (w : Width) : 0 < exponentBits w := by cases w <;> decide

/-- A word's mantissa field; of a 48-bit word the two halves of it. -/
def mantissaField : (w : Width) → PortWord → BitVec (w.fracBits + 1)
  | .w16, r => r.extractLsb' 6 10
  | .w32, r => r.extractLsb' 8 24
  | .w48, r => r.extractLsb' 24 24 ++ r.extractLsb' 0 16

/-- A word's exponent field. -/
def exponentField : (w : Width) → PortWord → BitVec (exponentBits w)
  | .w16, r => r.extractLsb' 0 6
  | .w32, r => r.extractLsb' 0 8
  | .w48, r => r.extractLsb' 16 8

theorem toInt_ofInt_eq_iff {n : ℕ} (hn : 0 < n) {k : ℤ} :
    (BitVec.ofInt n k).toInt = k ↔ -2 ^ (n - 1) ≤ k ∧ k < 2 ^ (n - 1) := by
  constructor
  · intro h
    rw [← h]
    exact ⟨BitVec.le_toInt _, BitVec.toInt_lt⟩
  · exact fun ⟨hlo, hhi⟩ => BitVec.toInt_ofInt_eq_self hn hlo hhi

/-- The fields of a word read back as the pair packed. -/
theorem toInt_fields {w : Width} {r : PortWord} {m e : ℤ} (hm : mantissaField w r = BitVec.ofInt _ m)
    (he : exponentField w r = BitVec.ofInt _ e) (hlo : -2 ^ w.fracBits ≤ m) (hhi : m < 2 ^ w.fracBits)
    (helo : -2 ^ (exponentBits w - 1) ≤ e) (hehi : e < 2 ^ (exponentBits w - 1)) :
    (mantissaField w r).toInt = m ∧ (exponentField w r).toInt = e := by
  rw [hm, he]
  exact ⟨(toInt_ofInt_eq_iff (Nat.succ_pos _)).mpr ⟨hlo, hhi⟩,
    (toInt_ofInt_eq_iff (exponentBits_pos w)).mpr ⟨helo, hehi⟩⟩

/-- The top bit of a word, which is that of its mantissa. -/
def topBit : Width → ℕ
  | .w16 => 15
  | .w32 => 31
  | .w48 => 47

theorem msb_mantissaField (w : Width) (r : PortWord) : (mantissaField w r).msb = r.getLsbD (topBit w) := by
  cases w with
  | w16 => simp [mantissaField, topBit, BitVec.msb_eq_getLsbD_last, Width.fracBits]
  | w32 => simp [mantissaField, topBit, BitVec.msb_eq_getLsbD_last, Width.fracBits]
  | w48 =>
    have h : (r.extractLsb' 24 24 ++ r.extractLsb' 0 16).msb = (r.extractLsb' 24 24).msb := BitVec.msb_append
    exact h.trans (by simp [topBit, BitVec.msb_eq_getLsbD_last])

/-- R111: packing does not need the sign bit where the mantissa has it. -/
theorem packWord_sign {w : Width} {m e : ℤ} {sg : Bool}
    (h : sg = true → (BitVec.ofInt (w.fracBits + 1) m).msb = true) : packWord w m e sg = packWord w m e false := by
  cases w with
  | w16 => rfl
  | w32 => rw [packWord, packWord, pack32_sign h, pack32_sign (s := false) (by simp)]
  | w48 => rw [packWord, packWord, pack48_sign h, pack48_sign (s := false) (by simp)]

theorem mantissaField_packWord (w : Width) (m e : ℤ) :
    mantissaField w (packWord w m e false) = BitVec.ofInt _ m := by
  cases w with
  | w16 =>
    rw [packWord, pack16_eq]
    exact (fields_of_append (by norm_num) _ _).1
  | w32 =>
    rw [packWord, pack32_sign (s := false) (by simp)]
    exact (fields_of_append (by norm_num) _ _).1
  | w48 =>
    rw [packWord, pack48_sign (s := false) (by simp)]
    exact (fields_of_append48 _ _).1

/-- A negative input's mantissa is negative and in its field's range, at a width whose boundary is 2^F. -/
theorem msb_mantissa_of_neg {w : Width} {p : Params} {x : Scaled} (hb : w.boundary p = 2 ^ w.fracBits)
    (hx : x.num < 0) : (BitVec.ofInt (w.fracBits + 1) (mantissaExponent w p x).1).msb = true := by
  have hc := mantissaExponent_corrected w p hx.ne
  rw [hb] at hc
  obtain ⟨hlo, -, hneg, -⟩ := Corrected_facts (one_le_fracBits w) (mt valueQ_eq_zero.mp hx.ne) hc
  exact bitVec_ofInt_msb hlo (hneg (valueQ_neg_iff.mpr hx))

theorem encodeFinite_sign {w : Width} {p : Params} {x : Scaled} {sg : Bool} (hb : w.boundary p = 2 ^ w.fracBits)
    (h : sg = true → x.num ≤ 0) : encodeFinite w p x sg = encodeFinite w p x false := by
  by_cases hx : x.num = 0
  · rw [encodeFinite, encodeFinite, if_pos hx, if_pos hx]
  · rw [encodeFinite, encodeFinite, if_neg hx, if_neg hx]
    exact packWord_sign fun hs => msb_mantissa_of_neg hb (lt_of_le_of_ne (h hs) hx)

theorem topBit_encodeFinite_of_neg {w : Width} {p : Params} {x : Scaled} (hb : w.boundary p = 2 ^ w.fracBits)
    (hx : x.num < 0) : (encodeFinite w p x false).getLsbD (topBit w) = true := by
  rw [encodeFinite, if_neg hx.ne, ← msb_mantissaField, mantissaField_packWord]
  exact msb_mantissa_of_neg hb hx

/-- Settles O34: a negative input's mantissa already has its top bit set, and a zero's word is not packed. -/
theorem extraSignBitRedundant : Obligations.ExtraSignBitRedundant := by
  intro p x
  exact ⟨fun sg h => ⟨encodeFinite_sign (w := .w32) rfl h, encodeFinite_sign (w := .w48) rfl h⟩,
    fun h => ⟨topBit_encodeFinite_of_neg (w := .w32) rfl h, topBit_encodeFinite_of_neg (w := .w48) rfl h⟩⟩

/-- A nonzero input's word by its fields, which leave no room above the width. -/
theorem encodeResponse_fields {w : Width} {a : PortWord} {x : ℚ} (p : Params)
    (hx : nativeQ w.fmt.expBits w.fmt.fracBits w.fmt.bias a = some x) (h0 : x ≠ 0) :
    ∃ r m e, Corrected (w.boundary p) (roundQ p.ties (scaledQ w.fracBits x)) (exponentQ x) m e ∧
      encodeResponse w p a = .ok r ∧ mantissaField w r = BitVec.ofInt _ m ∧
      exponentField w r = BitVec.ofInt _ e ∧ r >>> (decoder w r).operandBits = 0 := by
  cases w with
  | w16 => exact encode16_fields hx h0
  | w32 => exact encode32_fields hx h0
  | w48 => exact encode48_fields hx h0

theorem exec_encoder_fields {w : Width} {a : PortWord} {x : ℚ} (s : State)
    (hw : a >>> (encoder w a).operandBits = 0)
    (hx : nativeQ w.fmt.expBits w.fmt.fracBits w.fmt.bias a = some x) (h0 : x ≠ 0) :
    ∃ r m e, exec (encoder w a) s = .next (s.answered (.ok r)) ∧
      Corrected (w.boundary s.params) (roundQ s.params.ties (scaledQ w.fracBits x)) (exponentQ x) m e ∧
      mantissaField w r = BitVec.ofInt _ m ∧ exponentField w r = BitVec.ofInt _ e := by
  obtain ⟨r, m, e, hc, hr, hm, he, -⟩ := encodeResponse_fields s.params hx h0
  exact ⟨r, m, e, by rw [exec_encoder s hw, hr], hc, hm, he⟩

/-! ### The exponent field (R107, R112) -/

theorem toInt_eq_iff_of_eq_ofInt {b : BitVec 8} {k : ℤ} (h : b = BitVec.ofInt 8 k) :
    b.toInt = k ↔ -128 ≤ k ∧ k ≤ 127 := by
  rw [h, toInt_ofInt_eq_iff (by decide)]
  omega

/-- R107: the boundary correction adds at most 1 to an exponent in R103's range. -/
theorem correctedExponent_range {f : Fmt} {a : PortWord} {x : ℚ} (b m0 : ℤ)
    (hx : nativeQ f.expBits f.fracBits f.bias a = some x) (h0 : x ≠ 0) :
    1 - (f.bias : ℤ) - f.fracBits ≤ correctedExponent b m0 (exponentQ x) ∧
      correctedExponent b m0 (exponentQ x) ≤ f.bias + 2 := by
  have := exponentQ_range hx h0
  unfold correctedExponent
  split <;> omega

theorem exec_encoder_exponentField {w : Width} {a : PortWord} {x : ℚ} (s : State)
    (hw : a >>> (encoder w a).operandBits = 0)
    (hx : nativeQ w.fmt.expBits w.fmt.fracBits w.fmt.bias a = some x) (h0 : x ≠ 0) :
    ∃ r, exec (encoder w a) s = .next (s.answered (.ok r)) ∧ exponentField w r =
      BitVec.ofInt _ (correctedExponent (w.boundary s.params) (roundQ s.params.ties (scaledQ w.fracBits x))
        (exponentQ x)) := by
  obtain ⟨r, m, e, hr, hc, -, he⟩ := exec_encoder_fields s hw hx h0
  exact ⟨r, hr, by rw [he, Corrected_exponent hc]⟩

/-- Settles O35: a corrected exponent lies in the format's range, and a field of n bits holds it exactly when it lies
in the n-bit two's-complement range; ENC16's always does. -/
theorem exponentTruncation : Obligations.ExponentTruncation := by
  intro a s x h0
  refine ⟨fun hw hx _ => ?_, fun hw hx => ?_, fun hx => ?_⟩
  · obtain ⟨r, hr, he⟩ := exec_encoder_exponentField (w := .w16) s hw hx h0
    refine ⟨r, hr, (congrArg BitVec.toInt he).trans ?_⟩
    obtain ⟨hlo, hhi⟩ := correctedExponent_range (f := .binary16) s.params.enc16Boundary
      (roundQ s.params.ties (scaledQ 9 x)) hx h0
    simp only [Fmt.bias, Fmt.fracBits] at hlo hhi
    exact (toInt_ofInt_eq_iff (by decide)).mpr ⟨le_trans (by decide) hlo, lt_of_le_of_lt hhi (by decide)⟩
  · obtain ⟨r, hr, he⟩ := exec_encoder_exponentField (w := .w32) s hw hx h0
    obtain ⟨hlo, hhi⟩ := correctedExponent_range (f := .binary32) (2 ^ 23) (roundQ s.params.ties (scaledQ 23 x)) hx h0
    exact ⟨r, _, hr, rfl, hlo, hhi, toInt_eq_iff_of_eq_ofInt he⟩
  · obtain ⟨r, hr, he⟩ := exec_encoder_exponentField (w := .w48) s (ushiftRight_64 a) hx h0
    obtain ⟨hlo, hhi⟩ := correctedExponent_range (f := .binary64) (2 ^ 39) (roundQ s.params.ties (scaledQ 39 x)) hx h0
    exact ⟨r, _, hr, rfl, hlo, hhi, toInt_eq_iff_of_eq_ofInt he⟩

/-! ### Negated operands (R113, R114) -/

/-- The operand with the sign bit of its format flipped. -/
def flipSign (f : Fmt) (a : PortWord) : PortWord := a ^^^ BitVec.twoPow 64 f.signIndex

theorem extractLsb'_flipSign {f : Fmt} {i n : ℕ} (h : i + n ≤ f.signIndex) (a : PortWord) :
    (flipSign f a).extractLsb' i n = a.extractLsb' i n := by
  apply BitVec.eq_of_getLsbD_eq
  intro k hk
  have hne : f.signIndex ≠ i + k := by omega
  simp [flipSign, hk, BitVec.getLsbD_xor, BitVec.getLsbD_twoPow, hne]

theorem signBit_flipSign (f : Fmt) (a : PortWord) : signBit f (flipSign f a) = !signBit f a := by
  have h : f.signIndex < 64 := fmt_bits f
  simp [signBit, flipSign, h]

theorem nativeQ_flipSign (f : Fmt) (a : PortWord) :
    nativeQ f.expBits f.fracBits f.bias (flipSign f a) = (nativeQ f.expBits f.fracBits f.bias a).map (-·) := by
  have hs : (flipSign f a).getLsbD (f.expBits + f.fracBits) = !a.getLsbD (f.expBits + f.fracBits) :=
    signBit_flipSign f a
  have he := extractLsb'_flipSign (f := f) (i := f.fracBits) (n := f.expBits) (add_comm _ _).le a
  have ht := extractLsb'_flipSign (f := f) (i := 0) (n := f.fracBits) (by simp [Fmt.signIndex]) a
  have hneg : ∀ b : Bool, (if (!b) = true then (-1 : ℚ) else 1) = -(if b = true then -1 else 1) := by
    intro b
    cases b <;> simp
  simp only [nativeQ, hs, he, ht, hneg]
  generalize (if a.getLsbD (f.expBits + f.fracBits) = true then (-1 : ℚ) else 1) = sign
  split
  · rfl
  · split <;> simp only [Option.map_some, neg_mul]

theorem flipSign_ushiftRight {w : Width} {a : PortWord} (hw : a >>> (encoder w a).operandBits = 0) :
    flipSign w.fmt a >>> (encoder w (flipSign w.fmt a)).operandBits = 0 := by
  have hbit : ∀ b, (encoder w b).operandBits = w.fmt.signIndex + 1 := by cases w <;> exact fun _ => rfl
  rw [hbit] at hw ⊢
  rw [flipSign, BitVec.ushiftRight_xor_distrib, hw]
  apply BitVec.eq_of_getLsbD_eq
  intro i hi
  have hne : w.fmt.signIndex ≠ w.fmt.signIndex + 1 + i := by omega
  simp [BitVec.getLsbD_twoPow, hne]

theorem nativeQ_flipSign_of_eq_some {f : Fmt} {a : PortWord} {x : ℚ}
    (hx : nativeQ f.expBits f.fracBits f.bias a = some x) :
    nativeQ f.expBits f.fracBits f.bias (flipSign f a) = some (-x) := by
  rw [nativeQ_flipSign, hx]
  rfl

theorem parity_of_ofInt_eq {n : ℕ} (hn : 0 < n) {e e' : ℤ} (h : BitVec.ofInt n e = BitVec.ofInt n e') :
    Even e ↔ Even e' := by
  have hbit : decide (¬Even e) = decide (¬Even e') := by
    rw [← getElem_ofInt_zero hn e, ← getElem_ofInt_zero hn e']
    simp only [h]
  exact not_iff_not.mp (decide_eq_decide.mp hbit)

section
variable {w : Width} {a : PortWord} {x : ℚ}

/-- R114, at a boundary that no mantissa of magnitude below 2^F equals: off ±2^F neither mantissa is corrected, and at
±2^F, where the boundary is 2^F, just one of the two is. -/
theorem exec_encoder_flipSign (s : State) (hw : a >>> (encoder w a).operandBits = 0)
    (hx : nativeQ w.fmt.expBits w.fmt.fracBits w.fmt.bias a = some x) (h0 : x ≠ 0)
    (hb : 2 ^ w.fracBits ≤ w.boundary s.params) :
    ∃ r r', exec (encoder w a) s = .next (s.answered (.ok r)) ∧
      exec (encoder w (flipSign w.fmt a)) s = .next (s.answered (.ok r')) ∧
      (|roundQ s.params.ties (scaledQ w.fracBits x)| < 2 ^ w.fracBits →
        exponentField w r' = exponentField w r ∧ mantissaField w r' = -mantissaField w r) ∧
      (w.boundary s.params = 2 ^ w.fracBits → |roundQ s.params.ties (scaledQ w.fracBits x)| = 2 ^ w.fracBits →
        exponentField w r' ≠ exponentField w r) := by
  obtain ⟨r, m, e, hr, hc, hm, he⟩ := exec_encoder_fields s hw hx h0
  obtain ⟨r', m', e', hr', hc', hm', he'⟩ :=
    exec_encoder_fields s (flipSign_ushiftRight hw) (nativeQ_flipSign_of_eq_some hx) (neg_ne_zero.mpr h0)
  rw [scaledQ_neg, roundQ_neg, exponentQ_neg] at hc'
  refine ⟨r, r', hr, hr', fun hlt => ?_, fun hb' heq => ?_⟩
  · obtain ⟨hlo, hhi⟩ := abs_lt.mp hlt
    obtain ⟨rfl, rfl⟩ := hc.1 (by omega)
    obtain ⟨rfl, rfl⟩ := hc'.1 (by omega)
    exact ⟨he'.trans he.symm, by rw [hm', hm, BitVec.ofInt_neg]⟩
  · rw [hb'] at hc hc'
    have hp : (0 : ℤ) < 2 ^ w.fracBits := by positivity
    intro hf
    rw [he, he'] at hf
    have hpar := parity_of_ofInt_eq (exponentBits_pos w) hf
    obtain h | h := (abs_eq hp.le).mp heq
    · rw [(hc.2 h).1, (hc'.1 (by omega)).2, Int.even_add_one] at hpar
      exact iff_not_self hpar
    · rw [(hc.1 (by omega)).2, (hc'.2 (by omega)).1, Int.even_add_one] at hpar
      exact not_iff_self hpar

end

/-- Settles O37: rounding is odd, and the boundary correction reaches neither mantissa below 2^F and one of ±2^F. -/
theorem signSymmetry : Obligations.SignSymmetry := by
  intro a s x h0
  refine ⟨fun hw hx hl hlt => ?_, fun hw hx => ?_, fun hx => ?_⟩
  · have hb : 2 ^ 9 ≤ s.params.enc16Boundary := by obtain h | h := hl <;> omega
    obtain ⟨r, r', hr, hr', hfields, -⟩ := exec_encoder_flipSign (w := .w16) s hw hx h0 hb
    exact ⟨r, r', hr, hr', hfields hlt⟩
  · obtain ⟨r, r', hr, hr', hlt, heq⟩ := exec_encoder_flipSign (w := .w32) s hw hx h0 le_rfl
    exact ⟨r, r', hr, hr', hlt, heq rfl⟩
  · obtain ⟨r, r', hr, hr', hlt, heq⟩ := exec_encoder_flipSign (w := .w48) s (ushiftRight_64 a) hx h0 le_rfl
    exact ⟨r, r', hr, hr', hlt, heq rfl⟩

/-! ### Aliasing at 16 bits (R113) -/

theorem exponentQ_two_zpow (k : ℤ) : exponentQ (2 ^ k) = k := by
  have hp := two_zpow_pos k
  apply exponentQ_eq_of
  · rw [abs_of_pos hp]
    exact zpow_lt_zpow_right₀ one_lt_two (by omega)
  · rw [abs_of_pos hp]

theorem scaledQ_two_zpow (f : ℕ) (k : ℤ) : scaledQ f (2 ^ k) = ((2 ^ f : ℤ) : ℚ) := by
  rw [scaledQ, exponentQ_two_zpow, ← zpow_add₀ two_ne_zero, add_sub_cancel, zpow_natCast]
  push_cast
  rfl

/-- Under the literal boundary no mantissa is corrected: ENC16's rounded mantissa does not reach it (R105). -/
theorem Corrected_literal {p : Params} {x : ℚ} (hb : p.enc16Boundary = 32768) (h0 : x ≠ 0) {m e : ℤ}
    (h : Corrected p.enc16Boundary (roundQ p.ties (scaledQ 9 x)) (exponentQ x) m e) :
    m = roundQ p.ties (scaledQ 9 x) ∧ e = exponentQ x := by
  obtain ⟨-, hhi, -⟩ := roundQ_scaledQ_range h0 p.ties 9 (by norm_num)
  refine h.1 fun heq => ?_
  rw [Nat.cast_ofNat, heq, hb] at hhi
  norm_num at hhi

theorem ne_zero_of_roundQ_scaledQ_ne_zero {t : Ties} {f : ℤ} {x : ℚ} (h : roundQ t (scaledQ f x) ≠ 0) : x ≠ 0 := by
  rintro rfl
  apply h
  rw [scaledQ, zero_mul]
  exact roundQ_intCast t 0

theorem packWord_512_eq_neg_512 (e : ℤ) (sg sg' : Bool) :
    packWord .w16 (2 ^ 9) e sg = packWord .w16 (-2 ^ 9) e sg' := by
  have hfield : BitVec.ofInt 10 (2 ^ 9) = BitVec.ofInt 10 (-2 ^ 9) := by decide
  rw [packWord, packWord, pack16, pack16, hfield]

/-- Settles O36: uncorrected, +512 and −512 are one 10-bit field, and a power of two and its negation have those
mantissas and one exponent. -/
theorem enc16Aliasing : Obligations.Enc16Aliasing := by
  intro a s hw hb
  refine ⟨fun x hx hm => ?_, fun k _ _ hx => ?_⟩
  · have h0 : x ≠ 0 := ne_zero_of_roundQ_scaledQ_ne_zero (by rw [hm]; decide)
    obtain ⟨r, m, e, hr, hc, hf, -⟩ := exec_encoder_fields (w := .w16) s hw hx h0
    obtain ⟨rfl, -⟩ := Corrected_literal hb h0 hc
    have hfield : mantissaField .w16 r = 0b1000000000#10 := hf.trans (by rw [hm]; rfl)
    exact ⟨r, hr, hfield, (msb_mantissaField .w16 r).symm.trans (by rw [hfield]; rfl)⟩
  · have h0 : (2 : ℚ) ^ k ≠ 0 := (two_zpow_pos k).ne'
    obtain ⟨m, e, hc, hr⟩ := exec_encoder_nonzero (w := .w16) s hw hx h0
    obtain ⟨m', e', hc', hr'⟩ := exec_encoder_nonzero (w := .w16) s (flipSign_ushiftRight hw)
      (nativeQ_flipSign_of_eq_some hx) (neg_ne_zero.mpr h0)
    obtain ⟨rfl, rfl⟩ := Corrected_literal hb h0 hc
    obtain ⟨rfl, rfl⟩ := Corrected_literal hb (neg_ne_zero.mpr h0) hc'
    have hround : roundQ s.params.ties (scaledQ 9 (2 ^ k)) = 2 ^ 9 := by
      rw [show scaledQ 9 (2 ^ k) = _ from scaledQ_two_zpow 9 k, roundQ_intCast]
    rw [hround, exponentQ_two_zpow] at hr
    rw [scaledQ_neg, roundQ_neg, exponentQ_neg, hround, exponentQ_two_zpow,
      ← packWord_512_eq_neg_512 k (signBit .binary16 a)] at hr'
    exact ⟨_, hr, hr'⟩

/-! ### Accuracy (R115) -/

/-- R107: the mantissa fits its field unless +2^F is left uncorrected. -/
theorem Corrected_mantissa_range {f : ℕ} {b m0 e0 m e : ℤ} (h : Corrected b m0 e0 m e) (hhi : |m0| ≤ 2 ^ f)
    (hb : m0 = 2 ^ f → b = 2 ^ f) (hev : m0 = b → Even b) : -2 ^ f ≤ m ∧ m < 2 ^ f := by
  have hp : (0 : ℤ) < 2 ^ f := by positivity
  rw [abs_le] at hhi
  by_cases hm : m0 = b
  · obtain ⟨-, hhalf⟩ := h.2 hm
    have := hhalf (hm ▸ hev hm)
    omega
  · obtain ⟨rfl, -⟩ := h.1 hm
    exact ⟨hhi.1, lt_of_le_of_ne hhi.2 fun h' => hm (h'.trans (hb h').symm)⟩

theorem Corrected_value_of_even {b m0 e0 m e : ℤ} (h : Corrected b m0 e0 m e) (hev : m0 = b → Even b) (f : ℤ) :
    (m : ℚ) * 2 ^ (e - f) = m0 * 2 ^ (e0 - f) := by
  by_cases hm : m0 = b
  · exact Corrected_value h (hev hm) f
  · obtain ⟨rfl, rfl⟩ := h.1 hm
    rfl

/-- Half a unit in the last place: the rounding of y, scaled back (R104). -/
theorem abs_rounded_sub_le (t : Ties) (f : ℕ) (x : ℚ) :
    |roundQ t (scaledQ f x) * (2 : ℚ) ^ (exponentQ x - f) - x| ≤ 2 ^ (exponentQ x - (f + 1)) := by
  have hz := two_zpow_pos (exponentQ x - f)
  have hhalf : (2 : ℚ) ^ (exponentQ x - (f + 1)) = 1 / 2 * 2 ^ (exponentQ x - f) := by
    rw [← sub_sub, zpow_sub_one₀ two_ne_zero]
    ring
  calc |roundQ t (scaledQ f x) * (2 : ℚ) ^ (exponentQ x - f) - x|
      = |(roundQ t (scaledQ f x) - scaledQ f x) * 2 ^ (exponentQ x - f)| := by rw [sub_mul, scaledQ_mul]
    _ = |roundQ t (scaledQ f x) - scaledQ f x| * 2 ^ (exponentQ x - f) := by rw [abs_mul, abs_of_pos hz]
    _ ≤ 1 / 2 * 2 ^ (exponentQ x - f) := mul_le_mul_of_nonneg_right (abs_roundQ_sub_le t _) hz.le
    _ = _ := hhalf.symm

/-- What a word stands for, its fields read as two's complement (R115). -/
def wordValue (w : Width) (r : PortWord) : ℚ :=
  (mantissaField w r).toInt * 2 ^ ((exponentField w r).toInt - w.fracBits)

/-- R115, at any boundary: the mantissa is not the aliasing +2^F, nor one whose half is free (log entry 6). -/
theorem exec_encoder_accuracy {w : Width} {a : PortWord} {x : ℚ} (s : State)
    (hw : a >>> (encoder w a).operandBits = 0)
    (hx : nativeQ w.fmt.expBits w.fmt.fracBits w.fmt.bias a = some x) (h0 : x ≠ 0)
    (hb : roundQ s.params.ties (scaledQ w.fracBits x) = 2 ^ w.fracBits → w.boundary s.params = 2 ^ w.fracBits)
    (hev : roundQ s.params.ties (scaledQ w.fracBits x) = w.boundary s.params → Even (w.boundary s.params))
    (helo : -2 ^ (exponentBits w - 1) ≤
      correctedExponent (w.boundary s.params) (roundQ s.params.ties (scaledQ w.fracBits x)) (exponentQ x))
    (hehi : correctedExponent (w.boundary s.params) (roundQ s.params.ties (scaledQ w.fracBits x)) (exponentQ x) <
      2 ^ (exponentBits w - 1)) :
    ∃ r, exec (encoder w a) s = .next (s.answered (.ok r)) ∧
      |wordValue w r - x| ≤ 2 ^ (exponentQ x - (w.fracBits + 1)) := by
  obtain ⟨r, m, e, hr, hc, hm, he⟩ := exec_encoder_fields s hw hx h0
  obtain ⟨-, hhi, -⟩ := roundQ_scaledQ_range h0 s.params.ties w.fracBits (one_le_fracBits w)
  obtain ⟨hmlo, hmhi⟩ := Corrected_mantissa_range hc hhi hb hev
  rw [← Corrected_exponent hc] at helo hehi
  obtain ⟨hmi, hei⟩ := toInt_fields hm he hmlo hmhi helo hehi
  refine ⟨r, hr, ?_⟩
  rw [wordValue, hmi, hei, Corrected_value_of_even hc hev]
  exact abs_rounded_sub_le s.params.ties w.fracBits x

/-- Settles O38: the fields hold the corrected mantissa and exponent, which stand for the rounding of y scaled back. -/
theorem encodedWordAccuracy : Obligations.EncodedWordAccuracy := by
  intro a s x h0
  refine ⟨fun hw hx hb hev => ?_, fun hw hx hlo hhi => ?_, fun hx hlo hhi => ?_⟩
  · obtain ⟨hlo, hhi⟩ := correctedExponent_range (f := .binary16) s.params.enc16Boundary
      (roundQ s.params.ties (scaledQ 9 x)) hx h0
    exact exec_encoder_accuracy (w := .w16) s hw hx h0 hb hev (le_trans (by decide) hlo) (hhi.trans_lt (by decide))
  · exact exec_encoder_accuracy (w := .w32) s hw hx h0 (fun _ => rfl) (fun _ => even_two.pow_of_ne_zero (by decide)) hlo
      (Int.lt_add_one_of_le hhi)
  · exact exec_encoder_accuracy (w := .w48) s (ushiftRight_64 a) hx h0 (fun _ => rfl)
      (fun _ => even_two.pow_of_ne_zero (by decide)) hlo (Int.lt_add_one_of_le hhi)

/-! ### The tie rule (R104, R116) -/

theorem operation_cases (i : Instr) : ∃ w a, i = encoder w a ∨ i = decoder w a := by
  cases i with
  | enc16 a => exact ⟨.w16, a, .inl rfl⟩
  | enc32 a => exact ⟨.w32, a, .inl rfl⟩
  | enc48 a => exact ⟨.w48, a, .inl rfl⟩
  | dec16 a => exact ⟨.w16, a, .inr rfl⟩
  | dec32 a => exact ⟨.w32, a, .inr rfl⟩
  | dec48 a => exact ⟨.w48, a, .inr rfl⟩

theorem encoderOp_encoder (w : Width) (a : PortWord) : EncoderOp (opcodeOf (encoder w a)) := by
  cases w <;> simp [EncoderOp, encoder, opcodeOf]

/-- No decoder rounds by P_TIES. -/
theorem respond_decoder_ties (w : Width) (a : PortWord) (p : Params) (t t' : Ties) :
    respond { p with ties := t } (decoder w a) = respond { p with ties := t' } (decoder w a) := by
  cases w <;> rfl

theorem exec_encoder_raised_or_ok (w : Width) (a : PortWord) :
    (∃ c, ∀ s, exec (encoder w a) s = .next (s.answered (.raised c))) ∨
    (a >>> (encoder w a).operandBits = 0 ∧ ∃ x, nativeQ w.fmt.expBits w.fmt.fracBits w.fmt.bias a = some x) := by
  by_cases hw : a >>> (encoder w a).operandBits = 0
  · cases hx : nativeQ w.fmt.expBits w.fmt.fracBits w.fmt.bias a with
    | none => exact .inl ⟨_, fun s => exec_encoder_nonFinite s hw hx⟩
    | some x => exact .inr ⟨hw, x, rfl⟩
  · exact .inl ⟨_, fun s => exec_encoder_wide s hw⟩

/-- Settles O40: at a finite operand the words differ where the roundings do; a condition is raised before P_TIES is
read, and a decoder does not read it. -/
theorem tieRuleOnlyAtTies : Obligations.TieRuleOnlyAtTies := by
  intro a s
  refine ⟨fun x hw hx => encoder_answersUnderTies (w := .w16) hw hx s,
    fun x hw hx => encoder_answersUnderTies (w := .w32) hw hx s,
    fun x hx => encoder_answersUnderTies (w := .w48) (ushiftRight_64 a) hx s, fun i => ?_⟩
  obtain ⟨w, b, rfl | rfl⟩ := operation_cases i
  · obtain ⟨c, hc⟩ | ⟨hw, x, hx⟩ := exec_encoder_raised_or_ok w b
    · exact ⟨_, _, ⟨hc _, hc _⟩, fun h => absurd rfl h⟩
    · obtain ⟨r, r', h, -⟩ := encoder_answersUnderTies hw hx s
      exact ⟨_, _, h, fun _ => ⟨encoderOp_encoder w b, r, r', rfl, rfl⟩⟩
  · exact ⟨_, _, answersUnderTies (decoder w b) s, fun h => absurd (respond_decoder_ties w b s.params _ _) h⟩

/-! ### Two requests of the host (R163) -/

theorem responseTo_requestOf {s : State} (h : s.unanswered = false) (i : Instr) :
    s.responseTo (requestOf i) = some (respond s.params i) := by
  rw [responseTo_eq h, respondTo_requestOf]

/-- The exact value that a width's decoder rounds (R151 to R153). -/
def decodedValue : Width → Params → PortWord → Scaled
  | .w16, p, a => word16Value p.dec16Signed a
  | .w32, _, a => word32Value a
  | .w48, p, a => word48Value p.dec48Signed a

theorem respond_decoder {w : Width} {a : PortWord} (hw : a >>> (decoder w a).operandBits = 0) (p : Params) :
    respond p (decoder w a) = .ok (toIeee w.fmt (decodedValue w p a)) := by
  cases w <;> exact guardOperand_narrow hw _

/-- An encoder's word, given to the decoder of its width. -/
theorem responseTo_roundTrip {w : Width} {s : State} {a r : PortWord} (h : s.unanswered = false)
    (hw : a >>> (encoder w a).operandBits = 0) (hr : encodeResponse w s.params a = .ok r)
    (hn : r >>> (decoder w r).operandBits = 0) :
    s.responseTo (requestOf (encoder w a)) = some (.ok r) ∧
      s.responseTo (requestOf (decoder w r)) = some (.ok (toIeee w.fmt (decodedValue w s.params r))) := by
  rw [responseTo_requestOf h, responseTo_requestOf h, respond_encoder hw, respond_decoder hn, hr]
  exact ⟨rfl, rfl⟩

/-! ### Values that a native format holds -/

theorem abs_valueQ_lt {v : Scaled} {n : ℕ} {k : ℤ} (hn : v.num.natAbs < 2 ^ n) (hk : n + v.pow ≤ k) :
    |valueQ v| < 2 ^ k := by
  have hn' : (v.num.natAbs : ℚ) < 2 ^ n := by exact_mod_cast hn
  calc |valueQ v| = v.num.natAbs * 2 ^ v.pow := abs_valueQ v
    _ < 2 ^ n * 2 ^ v.pow := mul_lt_mul_of_pos_right hn' (two_zpow_pos _)
    _ = 2 ^ (n + v.pow) := by rw [zpow_add₀ two_ne_zero, zpow_natCast]
    _ ≤ 2 ^ k := zpow_le_zpow_right₀ one_le_two hk

/-- R154, R156: to_ieee is exact on a value that can be written with p + 1 bits above the least subnormal's, and lies
in the format's range. -/
theorem nativeQ_toIeee_of_fits {f : Fmt} {v u : Scaled} (h : valueQ v = valueQ u)
    (hn : u.num.natAbs < 2 ^ (f.fracBits + 1)) (hp : 1 - (f.bias : ℤ) - f.fracBits ≤ u.pow)
    (hlim : |valueQ u| < 2 ^ ((f.bias : ℤ) + 1)) :
    nativeQ f.expBits f.fracBits f.bias (toIeee f v) = some (valueQ u) := by
  rw [← h]
  apply nativeQ_toIeee_exact
  · rwa [h]
  · rw [h]
    by_cases hu : u.num = 0
    · exact ⟨0, by rw [valueQ_eq_zero.mpr hu]; simp⟩
    · exact multiple_of_unit hu hn hp

/-- R156: a value of the format is held. -/
theorem nativeQ_toIeee_of_native {f : Fmt} {a : PortWord} {v : Scaled}
    (hx : nativeQ f.expBits f.fracBits f.bias a = some (valueQ v)) :
    nativeQ f.expBits f.fracBits f.bias (toIeee f v) = some (valueQ v) := by
  obtain ⟨u, hu, h⟩ := finite_of_nativeQ hx
  obtain ⟨hn, hlo, hhi⟩ := finite_range hu
  rw [← h]
  exact nativeQ_toIeee_of_fits h.symm hn hlo (abs_valueQ_lt hn (by push_cast; omega))

/-! ### The word of every finite input, at a width whose boundary is 2^F -/

theorem encodeResponse_word {w : Width} {a : PortWord} {x : ℚ} {p : Params} (hb : w.boundary p = 2 ^ w.fracBits)
    (hx : nativeQ w.fmt.expBits w.fmt.fracBits w.fmt.bias a = some x) :
    ∃ r m e, Corrected (2 ^ w.fracBits) (roundQ p.ties (scaledQ w.fracBits x)) (exponentQ x) m e ∧
      encodeResponse w p a = .ok r ∧ mantissaField w r = BitVec.ofInt _ m ∧
      exponentField w r = BitVec.ofInt _ e ∧ r >>> (decoder w r).operandBits = 0 ∧
      -2 ^ w.fracBits ≤ m ∧ m < 2 ^ w.fracBits ∧ (x < 0 → m < 0) ∧ (0 ≤ x → 0 ≤ m) := by
  by_cases h0 : x = 0
  · subst h0
    have hround : roundQ p.ties (scaledQ w.fracBits 0) = 0 := by
      rw [scaledQ, zero_mul]
      exact roundQ_intCast p.ties 0
    have hexp : exponentQ 0 = 0 := by simp [exponentQ]
    have hp : (0 : ℤ) < 2 ^ w.fracBits := by positivity
    rw [hround, hexp]
    refine ⟨0, 0, 0, ⟨fun _ => ⟨rfl, rfl⟩, fun h => absurd h hp.ne⟩, encodeResponse_zero hx, ?_, ?_,
      BitVec.zero_ushiftRight, by omega, hp, fun h => absurd h (lt_irrefl _), fun _ => le_rfl⟩
    · cases w <;> rfl
    · cases w <;> rfl
  · obtain ⟨r, m, e, hc, hr, hm, he, hn⟩ := encodeResponse_fields p hx h0
    rw [hb] at hc
    obtain ⟨hlo, hhi, hneg, hpos, -⟩ := Corrected_facts (one_le_fracBits w) h0 hc
    exact ⟨r, m, e, hc, hr, hm, he, hn, hlo, hhi, hneg, fun h => (hpos (lt_of_le_of_ne h (Ne.symm h0))).le⟩

/-- The rounding of y scaled back is x exactly where y needs no rounding. -/
theorem rounded_eq_iff (t : Ties) (f : ℤ) (x : ℚ) :
    (roundQ t (scaledQ f x) : ℚ) * 2 ^ (exponentQ x - f) = x ↔ ∃ n : ℤ, scaledQ f x = n := by
  have hz := (two_zpow_pos (exponentQ x - f)).ne'
  constructor
  · intro h
    refine ⟨roundQ t (scaledQ f x), mul_right_cancel₀ hz ?_⟩
    rw [scaledQ_mul, h]
  · rintro ⟨n, hn⟩
    rw [hn, roundQ_intCast, ← hn, scaledQ_mul]

/-- A native value whose unit in the last place of the scaled mantissa lies at or below the format's least subnormal
scales to an integer. -/
theorem scaledQ_eq_intCast_of_small {f : Fmt} {a : PortWord} {x : ℚ} {k : ℤ}
    (hx : nativeQ f.expBits f.fracBits f.bias a = some x) (hk : exponentQ x - k ≤ 1 - (f.bias : ℤ) - f.fracBits) :
    ∃ n : ℤ, scaledQ k x = n := by
  obtain ⟨v, hv, rfl⟩ := finite_of_nativeQ hx
  obtain ⟨-, hlo, -⟩ := finite_range hv
  obtain ⟨j, hj⟩ := Int.eq_ofNat_of_zero_le (show 0 ≤ v.pow + (k - exponentQ (valueQ v)) by omega)
  refine ⟨v.num * 2 ^ j, ?_⟩
  rw [scaledQ]
  generalize exponentQ (valueQ v) = e at hj ⊢
  rw [valueQ, mul_assoc, ← zpow_add₀ two_ne_zero, hj]
  push_cast
  rfl

/-! ### 32 bits -/

theorem natAbs_toInt_le {n : ℕ} (b : BitVec (n + 1)) : b.toInt.natAbs ≤ 2 ^ n := by
  have hlo := b.le_toInt
  have hhi := b.toInt_lt
  rw [Nat.add_sub_cancel] at hlo hhi
  have : ((2 ^ n : ℕ) : ℤ) = 2 ^ n := by push_cast; rfl
  omega

/-- R156: binary32 holds a 32-bit word's value down to the exponent −126. -/
theorem nativeQ_toIeee_word32 {r : PortWord} (he : -126 ≤ (exponentField .w32 r).toInt) :
    nativeQ 8 23 127 (toIeee .binary32 (word32Value r)) = some (valueQ (word32Value r)) := by
  have hn : (word32Value r).num.natAbs < 2 ^ 24 :=
    (natAbs_toInt_le (mantissaField .w32 r)).trans_lt (by decide)
  have hpow : (word32Value r).pow = (exponentField .w32 r).toInt - 23 := rfl
  have hlo : 1 - (127 : ℤ) - 23 ≤ (word32Value r).pow := by omega
  have hehi : (exponentField .w32 r).toInt < 2 ^ 7 := BitVec.toInt_lt
  exact nativeQ_toIeee_of_fits (f := .binary32) rfl hn hlo (abs_valueQ_lt hn (k := 128) (by omega))

theorem Corrected_exponent_ge {b m0 e0 m e : ℤ} (h : Corrected b m0 e0 m e) : e0 ≤ e := by
  rw [Corrected_exponent h, correctedExponent]
  split <;> omega

/-- Settles O45: the word stands for the rounding of y scaled back, which binary32 holds: it is x itself, or its
exponent is −126 or more. -/
theorem roundTrip32 : Obligations.RoundTrip32 := by
  intro s a x hs hw hx helo hehi
  obtain ⟨r, m, e, hc, hr, hm, he, hn, hlo, hhi, -, -⟩ := encodeResponse_word (w := .w32) (p := s.params) rfl hx
  obtain ⟨henc, hdec⟩ := responseTo_roundTrip (w := .w32) hs hw hr hn
  have hcor := Corrected_exponent hc
  obtain ⟨hmi, hei⟩ := toInt_fields hm he hlo hhi (hcor ▸ helo) (Int.lt_add_one_of_le (hcor ▸ hehi))
  have hval : valueQ (word32Value r) = m * 2 ^ (e - 23) := by
    rw [← hmi, ← hei]
    rfl
  have hround : (m : ℚ) * 2 ^ (e - 23) = roundQ s.params.ties (scaledQ 23 x) * 2 ^ (exponentQ x - 23) :=
    Corrected_value hc (even_two.pow_of_ne_zero (by decide)) 23
  have hnative : nativeQ 8 23 127 (toIeee .binary32 (word32Value r)) = some (valueQ (word32Value r)) := by
    by_cases hint : ∃ n : ℤ, scaledQ 23 x = n
    · rw [← (rounded_eq_iff s.params.ties 23 x).mpr hint, ← hround, ← hval] at hx
      exact nativeQ_toIeee_of_native (f := .binary32) hx
    · apply nativeQ_toIeee_word32
      rw [hei]
      by_contra hlt
      have := Corrected_exponent_ge hc
      exact hint (scaledQ_eq_intCast_of_small (f := .binary32) hx (by simp only [Fmt.bias, Fmt.fracBits]; omega))
  refine ⟨r, _, _, henc, hdec, hnative, ⟨m, e, hc, hval⟩, ?_⟩
  rw [hval, hround]
  exact ⟨abs_rounded_sub_le s.params.ties 23 x, rounded_eq_iff s.params.ties 23 x⟩

/-! ### 48 bits -/

/-- R152, R153: both readings of a 48-bit word are of its 40-bit mantissa. -/
theorem word48Value_eq (sg : Bool) (r : PortWord) :
    word48Value sg r =
      { num := if sg then (mantissaField .w48 r).toInt else (mantissaField .w48 r).toNat
        pow := (exponentField .w48 r).toInt - 39 } := by
  cases sg with
  | false => exact word48Value_unsigned r
  | true => rfl

/-- R156: binary64 holds every 48-bit word's value. -/
theorem nativeQ_toIeee_word48 (sg : Bool) (r : PortWord) :
    nativeQ 11 52 1023 (toIeee .binary64 (word48Value sg r)) = some (valueQ (word48Value sg r)) := by
  have hn : (word48Value sg r).num.natAbs < 2 ^ 53 := by
    rw [word48Value_eq]
    cases sg with
    | false => exact (mantissaField .w48 r).isLt.trans (by decide)
    | true => exact (natAbs_toInt_le (mantissaField .w48 r)).trans_lt (by decide)
  have hpow : (word48Value sg r).pow = (exponentField .w48 r).toInt - 39 := by rw [word48Value_eq]
  have helo : -2 ^ 7 ≤ (exponentField .w48 r).toInt := BitVec.le_toInt _
  have hehi : (exponentField .w48 r).toInt < 2 ^ 7 := BitVec.toInt_lt
  have hlo : 1 - (1023 : ℤ) - 52 ≤ (word48Value sg r).pow := by omega
  exact nativeQ_toIeee_of_fits (f := .binary64) rfl hn hlo (abs_valueQ_lt hn (k := 1024) (by omega))

theorem toNat_ofInt_40 {m : ℤ} (hlo : -2 ^ 39 ≤ m) (hhi : m < 2 ^ 39) :
    ((BitVec.ofInt 40 m).toNat : ℤ) = if m < 0 then 2 ^ 40 + m else m := by
  rw [BitVec.toNat_ofInt]
  split <;> omega

/-- Settles O46: binary64 holds the word's value exactly, and a negative mantissa read unsigned is 2^40 greater. -/
theorem roundTrip48 : Obligations.RoundTrip48 := by
  intro s a x hs hx helo hehi
  obtain ⟨r, m, e, hc, hr, hm, he, hn, hlo, hhi, hneg, hpos⟩ :=
    encodeResponse_word (w := .w48) (p := s.params) rfl hx
  obtain ⟨henc, hdec⟩ := responseTo_roundTrip (w := .w48) hs (ushiftRight_64 a) hr hn
  have hcor := Corrected_exponent hc
  obtain ⟨hmi, hei⟩ := toInt_fields hm he hlo hhi (hcor ▸ helo) (Int.lt_add_one_of_le (hcor ▸ hehi))
  have hround : (m : ℚ) * 2 ^ (e - 39) = roundQ s.params.ties (scaledQ 39 x) * 2 ^ (exponentQ x - 39) :=
    Corrected_value hc (even_two.pow_of_ne_zero (by decide)) 39
  have hnum : ((mantissaField .w48 r).toNat : ℤ) = if m < 0 then 2 ^ 40 + m else m := by
    rw [hm]
    exact toNat_ofInt_40 hlo hhi
  refine ⟨r, _, _, m, e, henc, hdec, nativeQ_toIeee_word48 _ r, hc, fun h => ?_, fun h hx0 => ?_⟩
  · have hval : valueQ (word48Value s.params.dec48Signed r) = m * 2 ^ (e - 39) := by
      rw [word48Value_eq, hmi, hei, hnum, valueQ]
      obtain h | h := h
      · rw [if_pos h]
      · rw [if_neg (hpos h).not_gt, ite_self]
    refine ⟨hval, ?_⟩
    rw [hval, hround]
    exact abs_rounded_sub_le s.params.ties 39 x
  · have hval : valueQ (word48Value s.params.dec48Signed r) = (2 ^ 40 + m) * 2 ^ (e - 39) := by
      rw [word48Value_eq, hei, hnum, h, if_pos (hneg hx0), valueQ]
      push_cast
      rfl
    have hpos' : (0 : ℚ) < 2 ^ 40 + m := by
      have : 0 < 2 ^ 40 + m := by
        simp only [Width.fracBits] at hlo
        omega
      exact_mod_cast this
    exact ⟨hval, hval ▸ mul_pos hpos' (two_zpow_pos _)⟩

/-! ### 16 bits: the literal boundary read as two's complement -/

/-- R105: in the topmost binade of binary16, m0 = +512 from 2^16 − 64 on. -/
theorem exponentQ_eq_16_iff {t : Ties} {a : PortWord} {x : ℚ} (hx : nativeQ 5 10 15 a = some x)
    (hm : roundQ t (scaledQ 9 x) = 512) : exponentQ x = 16 ↔ 65472 ≤ x := by
  have h0 : x ≠ 0 := ne_zero_of_roundQ_scaledQ_ne_zero (by rw [hm]; decide)
  have hpos : 0 < scaledQ 9 x := by
    by_contra h
    have hle : roundQ t (scaledQ 9 x) ≤ 0 := roundQ_le (by rw [Int.cast_zero]; exact not_lt.mp h)
    omega
  have hxpos : 0 < x := pos_of_mul_pos_left hpos (two_zpow_pos _).le
  obtain ⟨-, hhi⟩ := exponentQ_range (f := .binary16) hx h0
  constructor
  · intro he
    have hy := (roundQ_scaledQ_range h0 t 9 (by norm_num)).2.2.mp (by rw [Nat.cast_ofNat, hm]; rfl)
    rw [Nat.cast_ofNat, abs_of_pos hpos, scaledQ, he] at hy
    norm_num at hy
    linarith
  · intro hle
    by_contra hne
    have hle15 : exponentQ x ≤ 15 := by
      simp only [Fmt.bias] at hhi
      omega
    have hx15 : x ≤ 2 ^ (15 : ℤ) :=
      calc x = |x| := (abs_of_pos hxpos).symm
        _ ≤ 2 ^ exponentQ x := (exponentQ_spec h0).2
        _ ≤ 2 ^ (15 : ℤ) := zpow_le_zpow_right₀ one_le_two hle15
    norm_num at hx15
    linarith

/-- R156: binary16 holds the negated powers of two from its least subnormal to its topmost binade, whatever the
mantissa they are written with. -/
theorem nativeQ_toIeee_neg_two_zpow {v : Scaled} {k : ℤ} (hv : valueQ v = -(2 ^ k)) (hlo : -24 ≤ k) (hhi : k ≤ 15) :
    nativeQ 5 10 15 (toIeee .binary16 v) = some (-(2 ^ k)) := by
  have hu : valueQ { num := -1, pow := k } = -(2 ^ k) := by simp [valueQ]
  rw [← hu] at hv ⊢
  have hn : (-1 : ℤ).natAbs < 2 ^ 1 := by decide
  exact nativeQ_toIeee_of_fits (f := .binary16) hv (hn.trans_le (by decide)) hlo
    (abs_valueQ_lt (k := 16) hn (by dsimp only; omega))

/-- Settles O49: the field of +512 reads back as −512, so the decoded value is −2^e0, which binary16 holds up to
2^15 and rounds to −Inf at 2^16. -/
theorem roundTrip16Mixed : Obligations.RoundTrip16Mixed := by
  intro s a x hs hb hsg hw hx hm0
  have h0 : x ≠ 0 := ne_zero_of_roundQ_scaledQ_ne_zero (by rw [hm0]; decide)
  obtain ⟨helo, hehi⟩ := exponentQ_range (f := .binary16) hx h0
  simp only [Fmt.bias, Fmt.fracBits] at helo hehi
  obtain ⟨r, m, e, hc, hr, hm, he, hn⟩ := encodeResponse_fields (w := .w16) s.params hx h0
  obtain ⟨rfl, rfl⟩ := Corrected_literal hb h0 hc
  obtain ⟨henc, hdec⟩ := responseTo_roundTrip (w := .w16) hs hw hr hn
  have hmi : (mantissaField .w16 r).toInt = -512 := by
    rw [hm, hm0]
    rfl
  have hei : (exponentField .w16 r).toInt = exponentQ x := by
    rw [he, toInt_ofInt_eq_iff (by decide)]
    exact ⟨le_trans (by decide) helo, lt_of_le_of_lt hehi (by decide)⟩
  have hword : decodedValue .w16 s.params r = { num := -512, pow := exponentQ x - 9 } := by
    rw [decodedValue, hsg, ← hmi, ← hei]
    rfl
  rw [hword] at hdec
  refine ⟨r, _, henc, hdec, fun hlt => ?_, fun hle => ?_⟩
  · have hle15 : exponentQ x ≤ 15 := by
      have := mt (exponentQ_eq_16_iff hx hm0).mp hlt.not_ge
      omega
    have hval : valueQ { num := -512, pow := exponentQ x - 9 } = -(2 ^ exponentQ x) := by
      rw [valueQ, zpow_sub₀ two_ne_zero]
      norm_num
      ring
    exact nativeQ_toIeee_neg_two_zpow hval helo hle15
  · rw [(exponentQ_eq_16_iff hx hm0).mpr hle]
    decide

end Sys2Proof.Proofs
end

section
/-!
PROOFS. The statements of 41_decode.md: the three decoders of every operand, which values they hold exactly, where they
overflow, the signs and zeros of their results, and the 16-bit round trips.
-/

namespace Sys2Proof.Proofs

open Sys2Proof.Machine Sys2Proof.Laws Sys2Proof.Safety

/-! ### What a decoder answers (R150) -/

section
variable {w : Width} {a : PortWord} (s : State)

theorem exec_decoder (hw : a >>> (decoder w a).operandBits = 0) :
    exec (decoder w a) s = .next (s.answered (.ok (toIeee w.fmt (decodedValue w s.params a)))) := by
  rw [exec_eq, respond_decoder hw]

/-- R204: a bit above the word is the one condition a decoder raises. -/
theorem exec_decoder_wide (hw : a >>> (decoder w a).operandBits ≠ 0) :
    exec (decoder w a) s = .next (s.answered (.raised .illegalOperand)) := by
  rw [exec_eq]
  congr 2
  cases w <;> exact guardOperand_wide hw _

/-- R154: the result is to_ieee of the exact value, over ℚ. -/
theorem exec_decoder_toNativeQ (hw : a >>> (decoder w a).operandBits = 0) {v : ℚ}
    (hv : valueQ (decodedValue w s.params a) = v) :
    exec (decoder w a) s = .next (s.answered (.ok (BitVec.ofInt 64
      (toNativeQ w.fmt.expBits w.fmt.fracBits w.fmt.bias v)))) := by
  rw [exec_decoder s hw, toIeee_eq, hv]

end

/-- Settles O27: the width check, and to_ieee of the value that word16Value reconstructs. -/
theorem dec16Operation : Obligations.Dec16Operation := fun a s =>
  ⟨exec_decoder_wide (w := .w16) s, fun hw => exec_decoder_toNativeQ (w := .w16) s hw (valueQ_word16 _ a)⟩

/-- Settles O28: the width check, and to_ieee of the value that word32Value reconstructs. -/
theorem dec32Operation : Obligations.Dec32Operation := fun a s =>
  ⟨exec_decoder_wide (w := .w32) s, fun hw => exec_decoder_toNativeQ (w := .w32) s hw (valueQ_word32 a)⟩

/-- Settles O29: the width check, and to_ieee of the value that word48Value reconstructs, under either parameter. -/
theorem dec48Operation : Obligations.Dec48Operation := fun a s =>
  ⟨exec_decoder_wide (w := .w48) s, fun hw => exec_decoder_toNativeQ (w := .w48) s hw (valueQ_word48 _ a)⟩

/-- Settles O41: binary64 holds the value of every 48-bit word. -/
theorem dec48Exact : Obligations.Dec48Exact := fun a s hw =>
  ⟨_, exec_decoder (w := .w48) s hw, (nativeQ_toIeee_word48 _ a).trans (congrArg some (valueQ_word48 _ a))⟩

/-! ### Where to_ieee overflows (R154) -/

/-- Rounding reaches an even integer from half way below it, under either tie rule. -/
theorem roundQ_eq_even_iff {t : Ties} {y : ℚ} {n : ℤ} (hn : Even n) (hp : 0 < n) (hy : y ≤ n) :
    roundQ t y = n ↔ (n : ℚ) - 1 / 2 ≤ y := by
  constructor
  · intro h
    have hnear := (abs_le.mp (abs_roundQ_sub_le t y)).2
    rw [h] at hnear
    linarith
  · intro h
    obtain rfl | h := h.eq_or_lt
    · exact roundQ_half_below_even hn hp
    · exact roundQ_eq_of_near (abs_lt.mpr ⟨by linarith, by linarith⟩)

/-- The least magnitude that rounds to an infinity: half a unit in the last place above the greatest finite value. -/
def overflowQ (f : Fmt) : ℚ := (2 ^ (f.fracBits + 1) - 1 / 2) * 2 ^ ((f.bias : ℤ) - f.fracBits)

theorem two_zpow_bias_lt_overflowQ (f : Fmt) : (2 : ℚ) ^ (f.bias : ℤ) < overflowQ f := by
  have hone : (1 : ℚ) ≤ 2 ^ f.fracBits := one_le_pow₀ one_le_two
  calc (2 : ℚ) ^ (f.bias : ℤ) = 2 ^ f.fracBits * 2 ^ ((f.bias : ℤ) - f.fracBits) := by
        rw [← zpow_natCast, ← zpow_add₀ two_ne_zero, add_sub_cancel]
    _ < overflowQ f := mul_lt_mul_of_pos_right (by rw [pow_succ]; linarith) (two_zpow_pos _)

theorem two_zpow_bias_succ (f : Fmt) :
    (2 : ℚ) ^ ((f.bias : ℤ) + 1) = 2 ^ (f.fracBits + 1) * 2 ^ ((f.bias : ℤ) - f.fracBits) := by
  rw [← zpow_natCast, ← zpow_add₀ two_ne_zero]
  congr 1
  push_cast
  ring

theorem overflowQ_lt_two_zpow (f : Fmt) : overflowQ f < 2 ^ ((f.bias : ℤ) + 1) := by
  rw [two_zpow_bias_succ]
  exact mul_lt_mul_of_pos_right (by linarith) (two_zpow_pos _)

/-- R154: the exponent before the carry reaches k exactly where the magnitude reaches 2^k, above the least exponent. -/
theorem le_max_log_iff {a : ℚ} (ha : 0 < a) {k emin : ℤ} (hk : emin < k) :
    k ≤ max (Int.log 2 a) emin ↔ 2 ^ k ≤ a := by
  rw [le_max_iff, or_iff_left hk.not_ge, ← Int.zpow_le_iff_le_log one_lt_two ha, Nat.cast_ofNat]

/-- R154: the exponent after the carry passes the format's greatest from overflowQ on. -/
theorem bias_lt_exponent_iff {f : Fmt} {v : Scaled} (hv : v.num ≠ 0) :
    (f.bias : ℤ) < (ieeeSignificand f v).2 ↔ overflowQ f ≤ |valueQ v| := by
  have ha : 0 < |valueQ v| := abs_pos.mpr (mt valueQ_eq_zero.mp hv)
  have hbias := fmt_bias_pos f
  have hbin := le_max_log_iff ha (show 1 - (f.bias : ℤ) < f.bias by omega)
  have htop := le_max_log_iff ha (show 1 - (f.bias : ℤ) < f.bias + 1 by omega)
  rw [ieeeSignificand_eq hv]
  generalize max (Int.log 2 |valueQ v|) (1 - (f.bias : ℤ)) = E at *
  rcases lt_trichotomy E f.bias with h | rfl | h
  · have hsmall : |valueQ v| < 2 ^ (f.bias : ℤ) := not_le.mp (mt hbin.mpr h.not_ge)
    refine iff_of_false ?_ (hsmall.trans (two_zpow_bias_lt_overflowQ f)).not_ge
    split <;> dsimp only <;> omega
  · have hz := two_zpow_pos ((f.bias : ℤ) - f.fracBits)
    have hle : |valueQ v| / 2 ^ ((f.bias : ℤ) - f.fracBits) ≤ ((2 ^ (f.fracBits + 1) : ℤ) : ℚ) := by
      rw [div_le_iff₀ hz]
      push_cast
      rw [← two_zpow_bias_succ]
      exact (not_le.mp (mt htop.mpr (lt_add_one _).not_ge)).le
    have hcarry := roundQ_eq_even_iff (t := .even) (even_two.pow_of_ne_zero (Nat.succ_ne_zero _)) (by positivity) hle
    rw [le_div_iff₀ hz] at hcarry
    push_cast at hcarry
    refine Iff.trans ?_ hcarry
    split
    · next hn => exact iff_of_true (lt_add_one _) hn
    · next hn => exact iff_of_false (lt_irrefl _) hn
  · have hlarge : overflowQ f ≤ |valueQ v| := (overflowQ_lt_two_zpow f).le.trans (htop.mp h)
    refine iff_of_true ?_ hlarge
    split <;> dsimp only <;> omega

/-- R154: the significand after the carry has p + 1 bits, and its exponent is not below the least. -/
theorem ieeeSignificand_range {f : Fmt} {v : Scaled} (hv : v.num ≠ 0) :
    (ieeeSignificand f v).1 < 2 ^ (f.fracBits + 1) ∧ 1 - (f.bias : ℤ) ≤ (ieeeSignificand f v).2 := by
  have hmin := le_max_right (Int.log 2 |valueQ v|) (1 - (f.bias : ℤ))
  obtain ⟨h0, h1, -⟩ :=
    significandQ_range (abs_pos.mpr (mt valueQ_eq_zero.mp hv)) f.fracBits (1 - (f.bias : ℤ))
  rw [ieeeSignificand_eq hv]
  split
  · exact ⟨Nat.pow_lt_pow_right one_lt_two (Nat.lt_succ_self _), hmin.trans (Int.le_add_one le_rfl)⟩
  · next hne =>
    refine ⟨(Int.toNat_lt h0).mpr ?_, hmin⟩
    push_cast
    exact lt_of_le_of_ne h1 hne

/-- R154: from overflowQ on the result is the infinity of the value's sign. -/
theorem toIeee_of_overflow {f : Fmt} {v : Scaled} (h : overflowQ f ≤ |valueQ v|) :
    toIeee f v = packIeee f (decide (v.num < 0)) (2 ^ f.expBits - 1) 0 := by
  have hv : v.num ≠ 0 := by
    intro h0
    rw [valueQ_eq_zero.mpr h0, abs_zero] at h
    exact ((two_zpow_pos _).trans (two_zpow_bias_lt_overflowQ f)).not_ge h
  rw [toIeee, if_neg hv, packSignificand, if_pos ((bias_lt_exponent_iff hv).mpr h)]

/-- R154: below overflowQ the result is finite. -/
theorem nativeQ_toIeee_of_lt_overflowQ {f : Fmt} {v : Scaled} (h : |valueQ v| < overflowQ f) :
    ∃ x, nativeQ f.expBits f.fracBits f.bias (toIeee f v) = some x := by
  have hp : 0 < 2 ^ f.fracBits := by positivity
  have htop := fmt_top f
  by_cases hv : v.num = 0
  · rw [toIeee, if_pos hv]
    refine Option.ne_none_iff_exists'.mp (mt nativeQ_eq_none.mp ?_)
    rw [show expField f 0 = 0 by simp [expField]]
    omega
  · obtain ⟨hn, he⟩ := ieeeSignificand_range (f := f) hv
    have hmax := mt (bias_lt_exponent_iff hv).mp h.not_ge
    rw [toIeee, if_neg hv, packSignificand, if_neg hmax]
    split
    · next hs => exact ⟨_, nativeQ_packIeee (by omega) hs⟩
    · next hs => exact ⟨_, nativeQ_packIeee (by omega) (by rw [pow_succ] at hn; omega)⟩

/-! ### DEC32 (R156) -/

theorem natAbs_num_word32_lt (r : PortWord) : (word32Value r).num.natAbs < 2 ^ 24 :=
  (natAbs_toInt_le (mantissaField .w32 r)).trans_lt (by decide)

/-- R156: binary32 has a finite pattern for every 32-bit word, and holds its value but for the two least exponents. -/
theorem nativeQ_toIeee_word32_finite (r : PortWord) :
    ∃ x, nativeQ 8 23 127 (toIeee .binary32 (word32Value r)) = some x ∧
      ((exponentField .w32 r).toInt ≠ -128 → (exponentField .w32 r).toInt ≠ -127 → x = valueQ (word32Value r)) := by
  by_cases he : -126 ≤ (exponentField .w32 r).toInt
  · exact ⟨_, nativeQ_toIeee_word32 he, fun _ _ => rfl⟩
  · have hlo : -2 ^ 7 ≤ (exponentField .w32 r).toInt := BitVec.le_toInt _
    have hpow : (word32Value r).pow = (exponentField .w32 r).toInt - 23 := rfl
    have hsmall : |valueQ (word32Value r)| < 2 ^ (127 : ℤ) := abs_valueQ_lt (natAbs_num_word32_lt r) (by omega)
    obtain ⟨x, hx⟩ :=
      nativeQ_toIeee_of_lt_overflowQ (f := .binary32) (hsmall.trans (two_zpow_bias_lt_overflowQ .binary32))
    exact ⟨x, hx, fun h1 h2 => by omega⟩

/-- Settles O42: a word's value is held exactly from the exponent −126 on, and lies far below the overflow before. -/
theorem dec32Exact : Obligations.Dec32Exact := by
  intro a s hw
  obtain ⟨x, hx, hexact⟩ := nativeQ_toIeee_word32_finite a
  exact ⟨_, x, exec_decoder (w := .w32) s hw, hx, hexact⟩

/-! ### DEC16 (R156) -/

theorem packIeee_infinity_inj {f : Fmt} {sg sg' : Bool} :
    packIeee f sg (2 ^ f.expBits - 1) 0 = packIeee f sg' (2 ^ f.expBits - 1) 0 ↔ sg = sg' := by
  have hsign : ∀ b, signBit f (packIeee f b (2 ^ f.expBits - 1) 0) = b := fun _ =>
    (packIeee_fields (Nat.sub_lt (by positivity) one_pos) (by positivity)).2.2
  refine ⟨fun h => ?_, fun h => h ▸ rfl⟩
  rw [← hsign sg, h, hsign]

theorem nativeQ_infinity (f : Fmt) (sg : Bool) :
    nativeQ f.expBits f.fracBits f.bias (packIeee f sg (2 ^ f.expBits - 1) 0) = none :=
  nativeQ_eq_none.mpr (packIeee_fields (Nat.sub_lt (by positivity) one_pos) (by positivity)).1

/-- R154: the infinity of a sign is the result exactly from overflowQ on, on that side of 0. -/
theorem toIeee_eq_infinity_iff (f : Fmt) (v : Scaled) (sg : Bool) :
    toIeee f v = packIeee f sg (2 ^ f.expBits - 1) 0 ↔ overflowQ f ≤ if sg then -valueQ v else valueQ v := by
  by_cases h : overflowQ f ≤ |valueQ v|
  · rw [toIeee_of_overflow h, packIeee_infinity_inj]
    have hpos : 0 < overflowQ f := (two_zpow_pos _).trans (two_zpow_bias_lt_overflowQ f)
    by_cases hneg : v.num < 0
    · have hv := valueQ_neg_iff.mpr hneg
      rw [abs_of_neg hv] at h
      cases sg <;> simp [hneg, h, hv.trans hpos]
    · have hv := not_lt.mp (mt valueQ_neg_iff.mp hneg)
      rw [abs_of_nonneg hv] at h
      cases sg <;> simp [hneg, h, (neg_nonpos.mpr hv).trans_lt hpos]
  · obtain ⟨x, hx⟩ := nativeQ_toIeee_of_lt_overflowQ (not_le.mp h)
    refine iff_of_false (fun heq => ?_) (fun hle => h (hle.trans ?_))
    · rw [heq, nativeQ_infinity] at hx
      cases hx
    · split
      · exact neg_le_abs _
      · exact le_abs_self _

theorem overflowQ_binary16 : overflowQ .binary16 = 65520 := by
  norm_num [overflowQ, Fmt.fracBits, Fmt.bias]

theorem toIeee_eq_posInf16_iff (v : Scaled) : toIeee .binary16 v = 0x7C00#64 ↔ 65520 ≤ valueQ v := by
  rw [← overflowQ_binary16]
  exact toIeee_eq_infinity_iff .binary16 v false

theorem toIeee_eq_negInf16_iff (v : Scaled) : toIeee .binary16 v = 0xFC00#64 ↔ valueQ v ≤ -65520 := by
  rw [le_neg, ← overflowQ_binary16]
  exact toIeee_eq_infinity_iff .binary16 v true

theorem natAbs_num_word16_lt (sg : Bool) (r : PortWord) : (word16Value sg r).num.natAbs < 2 ^ 10 := by
  cases sg with
  | false => exact (mantissaField .w16 r).isLt
  | true => exact (natAbs_toInt_le (mantissaField .w16 r)).trans_lt (by decide)

/-- R156: binary16 holds a 16-bit word's value below the overflow, down to the exponent −15. -/
theorem nativeQ_toIeee_word16 {sg : Bool} {r : PortWord} (h : |valueQ (word16Value sg r)| < 65520)
    (he : -15 ≤ (exponentField .w16 r).toInt) :
    nativeQ 5 10 15 (toIeee .binary16 (word16Value sg r)) = some (valueQ (word16Value sg r)) := by
  have hpow : (word16Value sg r).pow = (exponentField .w16 r).toInt - 9 := rfl
  have hlo : 1 - (15 : ℤ) - 10 ≤ (word16Value sg r).pow := by omega
  exact nativeQ_toIeee_of_fits (f := .binary16) rfl ((natAbs_num_word16_lt sg r).trans (by decide)) hlo
    ((h.trans_eq overflowQ_binary16.symm).trans (overflowQ_lt_two_zpow .binary16))

/-- Settles O43: binary16 overflows at 65520, half a unit above its greatest value, and holds the ten bits of a
mantissa below that down to its least subnormal. -/
theorem dec16Range : Obligations.Dec16Range := by
  intro a s hw v
  have hv : valueQ (word16Value s.params.dec16Signed a) = v := valueQ_word16 _ a
  refine ⟨_, exec_decoder (w := .w16) s hw, ?_⟩
  rw [← hv]
  exact ⟨toIeee_eq_posInf16_iff _, toIeee_eq_negInf16_iff _, nativeQ_toIeee_word16⟩

/-! ### Zeros, signs and NaNs (R157) -/

theorem toIeee_of_num_eq_zero (f : Fmt) {v : Scaled} (h : v.num = 0) : toIeee f v = 0 := by
  rw [toIeee, if_pos h]

/-- R154: the result has the value's sign bit, though a negative value may round to −0. -/
theorem signBit_toIeee (f : Fmt) (v : Scaled) : signBit f (toIeee f v) = decide (v.num < 0) := by
  obtain ⟨hv, h⟩ | ⟨-, x, t, hx, ht, -, h⟩ := toIeee_cases f v
  · rw [h, hv]
    exact BitVec.getLsbD_zero
  · rw [h, (packIeee_fields hx ht).2.2]

/-- R157: a 16-bit mantissa read unsigned gives no sign bit. -/
theorem signBit_toIeee_word16_unsigned (r : PortWord) :
    (toIeee .binary16 (word16Value false r)).getLsbD 15 = false := by
  have hnn : ¬(word16Value false r).num < 0 := (Int.natCast_nonneg _).not_gt
  exact (signBit_toIeee .binary16 _).trans (decide_eq_false hnn)

/-- R154, R157: to_ieee answers no NaN. -/
theorem fracField_toIeee_of_top {f : Fmt} {v : Scaled} (h : expField f (toIeee f v) = 2 ^ f.expBits - 1) :
    fracField f (toIeee f v) = 0 := by
  obtain ⟨-, hz⟩ | ⟨-, x, t, hx, ht, htop, hp⟩ := toIeee_cases f v
  · rw [hz]
    simp [fracField]
  · rw [hp] at h ⊢
    obtain ⟨he, hf, -⟩ := packIeee_fields (s := decide (v.num < 0)) hx ht
    rw [hf, htop (he.symm.trans h)]

/-- R68: a pattern with a value has not the exponent field of all ones. -/
theorem extractLsb'_ne_of_nativeQ {f : Fmt} {b : PortWord} {x : ℚ}
    (h : nativeQ f.expBits f.fracBits f.bias b = some x) :
    b.extractLsb' f.fracBits f.expBits ≠ BitVec.ofNat _ (2 ^ f.expBits - 1) := by
  intro heq
  have hnone : nativeQ f.expBits f.fracBits f.bias b = none := by
    rw [nativeQ_eq_none, expField_eq, heq, BitVec.toNat_ofNat, Nat.mod_eq_of_lt (Nat.sub_lt (by positivity) one_pos)]
  rw [hnone] at h
  cases h

theorem dec16_zerosAndSigns (sg : Bool) (a : PortWord) :
    (a.extractLsb' 6 10 = 0 → toIeee .binary16 (word16Value sg a) = 0) ∧
    (sg = false → (toIeee .binary16 (word16Value sg a)).getLsbD 15 = false) ∧
    ((toIeee .binary16 (word16Value sg a)).extractLsb' 10 5 = 0x1F#5 →
      (toIeee .binary16 (word16Value sg a)).extractLsb' 0 10 = 0) := by
  refine ⟨fun hm => toIeee_of_num_eq_zero _ ?_, fun hs => ?_, fun h => ?_⟩
  · cases sg <;> simp [word16Value, hm]
  · rw [hs]
    exact signBit_toIeee_word16_unsigned a
  · have htop := (expField_eq .binary16 (toIeee .binary16 (word16Value sg a))).trans (congrArg BitVec.toNat h)
    exact fracField_eq_zero_iff.mp (fracField_toIeee_of_top (f := .binary16) htop)

theorem dec32_zerosAndSigns (a : PortWord) :
    (a.extractLsb' 8 24 = 0 → toIeee .binary32 (word32Value a) = 0) ∧
    (toIeee .binary32 (word32Value a) = 0x80000000#64 → (a.extractLsb' 8 24).toInt < 0) ∧
    (toIeee .binary32 (word32Value a)).extractLsb' 23 8 ≠ 0xFF#8 := by
  obtain ⟨x, hx, -⟩ := nativeQ_toIeee_word32_finite a
  refine ⟨fun hm => toIeee_of_num_eq_zero _ (congrArg BitVec.toInt hm), fun h => ?_,
    extractLsb'_ne_of_nativeQ (f := .binary32) hx⟩
  have hsign := signBit_toIeee .binary32 (word32Value a)
  rw [h] at hsign
  exact of_decide_eq_true hsign.symm

theorem dec48_zerosAndSigns (sg : Bool) (a : PortWord) :
    (a.extractLsb' 24 24 = 0 → a.extractLsb' 0 16 = 0 → toIeee .binary64 (word48Value sg a) = 0) ∧
    (sg = false → (toIeee .binary64 (word48Value sg a)).getLsbD 63 = false) ∧
    toIeee .binary64 (word48Value sg a) ≠ 0x8000000000000000#64 ∧
    (toIeee .binary64 (word48Value sg a)).extractLsb' 52 11 ≠ 0x7FF#11 := by
  have hexact := nativeQ_toIeee_word48 sg a
  refine ⟨fun hh hl => toIeee_of_num_eq_zero _ ?_, fun hs => ?_, fun h => ?_,
    extractLsb'_ne_of_nativeQ (f := .binary64) hexact⟩
  · have hm : mantissaField .w48 a = 0 := by
      rw [mantissaField, hh, hl]
      rfl
    rw [word48Value_eq, hm]
    cases sg <;> rfl
  · have hnn : ¬(word48Value sg a).num < 0 := by simp [word48Value_eq, hs]
    exact (signBit_toIeee .binary64 _).trans (decide_eq_false hnn)
  · rw [h] at hexact
    have h0 := Option.some.inj (hexact.symm.trans (nativeQ_signedZero .binary64 true))
    have hz := toIeee_of_num_eq_zero .binary64 (valueQ_eq_zero.mp h0)
    rw [h] at hz
    exact absurd hz (by decide)

/-- Settles O44: a value of 0 is answered +0 and any other its own sign; only binary16 overflows, to an infinity, and
binary64 holds every value, so that only 0 itself becomes a zero. -/
theorem decoderZerosAndSigns : Obligations.DecoderZerosAndSigns := fun a s =>
  ⟨fun hw => ⟨_, exec_decoder (w := .w16) s hw, dec16_zerosAndSigns _ a⟩,
    fun hw => ⟨_, exec_decoder (w := .w32) s hw, dec32_zerosAndSigns a⟩,
    fun hw => ⟨_, exec_decoder (w := .w48) s hw, dec48_zerosAndSigns _ a⟩⟩


/-! ### The rounding of a binary16 value, decoded (R163) -/

theorem exponentQ_zero : exponentQ 0 = 0 := by simp [exponentQ]

theorem roundQ_scaledQ_nonneg (t : Ties) (f : ℤ) {x : ℚ} (hx : 0 ≤ x) : 0 ≤ roundQ t (scaledQ f x) :=
  le_roundQ (by rw [Int.cast_zero]; exact mul_nonneg hx (two_zpow_pos _).le)

section
variable {t : Ties} {x : ℚ}

/-- R105: in the topmost binade of binary16, |m0| = 512 from 2^16 − 64 on. -/
theorem abs_roundQ_top_iff (he : exponentQ x = 16) : |roundQ t (scaledQ 9 x)| = 2 ^ 9 ↔ 65472 ≤ |x| := by
  have h0 : x ≠ 0 := by
    rintro rfl
    rw [exponentQ_zero] at he
    omega
  have hy : |scaledQ 9 x| = |x| / 128 := by
    rw [scaledQ, he, abs_mul, div_eq_mul_inv]
    norm_num
  refine (roundQ_scaledQ_range h0 t 9 (by norm_num)).2.2.trans ?_
  rw [Nat.cast_ofNat, hy]
  constructor <;> intro h <;> linarith

/-- Below 2^16 − 64 rounding to ten bits keeps a binary16 value below 2^16. -/
theorem abs_rounded16_lt (h0 : x ≠ 0) (hhi : exponentQ x ≤ 16) (hx : |x| < 65472) :
    |(roundQ t (scaledQ 9 x) : ℚ) * 2 ^ (exponentQ x - 9)| < 2 ^ (16 : ℤ) := by
  obtain ⟨-, hle, -⟩ := roundQ_scaledQ_range h0 t 9 (by norm_num)
  rw [Nat.cast_ofNat] at hle
  have hz := two_zpow_pos (exponentQ x - 9)
  rw [abs_mul, abs_of_pos hz, ← Int.cast_abs]
  obtain he | he := hhi.lt_or_eq
  · calc ((|roundQ t (scaledQ 9 x)| : ℤ) : ℚ) * 2 ^ (exponentQ x - 9)
        ≤ 2 ^ 9 * 2 ^ (exponentQ x - 9) := mul_le_mul_of_nonneg_right (by exact_mod_cast hle) hz.le
      _ = 2 ^ exponentQ x := by rw [← zpow_natCast, ← zpow_add₀ two_ne_zero]; congr 1; push_cast; ring
      _ < 2 ^ (16 : ℤ) := zpow_lt_zpow_right₀ one_lt_two he
  · have hlt : |roundQ t (scaledQ 9 x)| < 2 ^ 9 := lt_of_le_of_ne hle (mt (abs_roundQ_top_iff he).mp hx.not_ge)
    calc ((|roundQ t (scaledQ 9 x)| : ℤ) : ℚ) * 2 ^ (exponentQ x - 9)
        < 2 ^ 9 * 2 ^ (exponentQ x - 9) := mul_lt_mul_of_pos_right (by exact_mod_cast hlt) hz
      _ = 2 ^ (16 : ℤ) := by rw [he]; norm_num

/-- From 2^16 − 64 on a binary16 value rounds to 2^16. -/
theorem rounded16_of_large (hhi : exponentQ x ≤ 16) (hx : 65472 ≤ x) :
    (roundQ t (scaledQ 9 x) : ℚ) * 2 ^ (exponentQ x - 9) = 65536 := by
  have hpos : 0 < x := by linarith
  have he : exponentQ x = 16 := by
    by_contra hne
    have hle : x ≤ 2 ^ (15 : ℤ) :=
      calc x = |x| := (abs_of_pos hpos).symm
        _ ≤ 2 ^ exponentQ x := (exponentQ_spec hpos.ne').2
        _ ≤ 2 ^ (15 : ℤ) := zpow_le_zpow_right₀ one_le_two (by omega)
    norm_num at hle
    linarith
  have hm := (abs_roundQ_top_iff (t := t) he).mpr (hx.trans (le_abs_self x))
  rw [abs_of_nonneg (roundQ_scaledQ_nonneg t 9 hpos.le)] at hm
  rw [hm, he]
  norm_num

/-- R154, R163: to_ieee of a binary16 value rounded to ten bits. It is exact below 2^16 − 64, where the value has a unit
above the least subnormal or needed no rounding, and an infinity from there on, where the value is ±2^16. -/
theorem toIeee_rounded16 {a : PortWord} {v : Scaled} (hx : nativeQ 5 10 15 a = some x)
    (hv : valueQ v = roundQ t (scaledQ 9 x) * 2 ^ (exponentQ x - 9)) :
    (|x| < 65472 → nativeQ 5 10 15 (toIeee .binary16 v) = some (valueQ v)) ∧
    (65472 ≤ x → toIeee .binary16 v = 0x7C00#64) ∧ (x ≤ -65472 → toIeee .binary16 v = 0xFC00#64) := by
  have hhi : x ≠ 0 → exponentQ x ≤ 16 := fun h0 => (exponentQ_range (f := .binary16) hx h0).2
  refine ⟨fun hlt => ?_, fun hle => ?_, fun hle => ?_⟩
  · by_cases hint : ∃ n : ℤ, scaledQ 9 x = n
    · rw [← (rounded_eq_iff t 9 x).mpr hint, ← hv] at hx
      exact nativeQ_toIeee_of_native (f := .binary16) hx
    · have h0 : x ≠ 0 := by
        rintro rfl
        exact hint ⟨0, by simp [scaledQ]⟩
      have hpow : 1 - (15 : ℤ) - 10 ≤ exponentQ x - 9 := by
        by_contra hsmall
        exact hint (scaledQ_eq_intCast_of_small (f := .binary16) hx (not_le.mp hsmall).le)
      have hn : (roundQ t (scaledQ 9 x)).natAbs < 2 ^ 11 := by
        have hm := (roundQ_scaledQ_range h0 t 9 (by norm_num)).2.1
        rw [Nat.cast_ofNat, Int.abs_eq_natAbs] at hm
        omega
      rw [hv]
      exact nativeQ_toIeee_of_fits (f := .binary16) (u := ⟨roundQ t (scaledQ 9 x), exponentQ x - 9⟩) hv hn hpow
        (abs_rounded16_lt h0 (hhi h0) hlt)
  · rw [toIeee_eq_posInf16_iff, hv, rounded16_of_large (hhi (by linarith)) hle]
    norm_num
  · have hneg : (roundQ t (scaledQ 9 (-x)) : ℚ) * 2 ^ (exponentQ (-x) - 9) = 65536 :=
      rounded16_of_large (by rw [exponentQ_neg]; exact hhi (by linarith)) (by linarith)
    rw [scaledQ_neg, roundQ_neg, exponentQ_neg, Int.cast_neg, neg_mul, ← hv] at hneg
    rw [toIeee_eq_negInf16_iff]
    linarith

end

/-! ### The 16-bit word decoded -/

section
variable {p : Params} {a : PortWord} {x : ℚ}

/-- R107: the exponent field of a 16-bit word holds every corrected exponent (R112). -/
theorem correctedExponent16_fits (b m0 : ℤ) (hx : nativeQ 5 10 15 a = some x) :
    -2 ^ 5 ≤ correctedExponent b m0 (exponentQ x) ∧ correctedExponent b m0 (exponentQ x) < 2 ^ 5 := by
  by_cases h0 : x = 0
  · rw [h0, exponentQ_zero, correctedExponent]
    split <;> decide
  · obtain ⟨hlo, hhi⟩ := correctedExponent_range (f := .binary16) b m0 hx h0
    exact ⟨le_trans (by decide) hlo, lt_of_le_of_lt hhi (by decide)⟩

/-- ENC16's word under the literal boundary: the rounded mantissa and the exponent uncorrected. -/
theorem encodeResponse16_literal (hb : p.enc16Boundary = 32768) (hx : nativeQ 5 10 15 a = some x) :
    ∃ r, encodeResponse .w16 p a = .ok r ∧ r >>> (decoder .w16 r).operandBits = 0 ∧
      (x ≠ 0 → mantissaField .w16 r = BitVec.ofInt 10 (roundQ p.ties (scaledQ 9 x)) ∧
        (exponentField .w16 r).toInt = exponentQ x) := by
  by_cases h0 : x = 0
  · exact ⟨0, encodeResponse_zero (w := .w16) (h0 ▸ hx), BitVec.zero_ushiftRight, fun h => absurd h0 h⟩
  · obtain ⟨r, m, e, hc, hr, hm, he, hn⟩ := encodeResponse_fields (w := .w16) p hx h0
    have hfits : -2 ^ 5 ≤ e ∧ e < 2 ^ 5 := Corrected_exponent hc ▸ correctedExponent16_fits _ _ hx
    obtain ⟨rfl, rfl⟩ := Corrected_literal hb h0 hc
    exact ⟨r, hr, hn, fun _ => ⟨hm, he ▸ (toInt_ofInt_eq_iff (by decide)).mpr hfits⟩⟩

/-- A positive input's word, read unsigned, stands for its rounding. -/
theorem valueQ_word16_unsigned {t : Ties} {r : PortWord} (hpos : 0 < x)
    (hm : mantissaField .w16 r = BitVec.ofInt 10 (roundQ t (scaledQ 9 x)))
    (he : (exponentField .w16 r).toInt = exponentQ x) :
    valueQ (word16Value false r) = roundQ t (scaledQ 9 x) * 2 ^ (exponentQ x - 9) := by
  have hnn := roundQ_scaledQ_nonneg t 9 hpos.le
  have hle := (roundQ_scaledQ_range hpos.ne' t 9 (by norm_num)).2.1
  rw [Nat.cast_ofNat, abs_of_nonneg hnn] at hle
  have hfield : ((BitVec.ofInt 10 (roundQ t (scaledQ 9 x))).toNat : ℤ) = roundQ t (scaledQ 9 x) := by
    rw [BitVec.toNat_ofInt]
    omega
  have hnat : ((mantissaField .w16 r).toNat : ℤ) = roundQ t (scaledQ 9 x) := by rw [hm]; exact hfield
  have hval : word16Value false r = ⟨(mantissaField .w16 r).toNat, (exponentField .w16 r).toInt - 9⟩ := rfl
  rw [hval, hnat, he, valueQ]

end

/-! ### The 16-bit round trips (R163) -/

/-- Settles O47: a positive input's word stands for its rounding, which `toIeee_rounded16` decodes; a mantissa read
unsigned gives no sign bit. -/
theorem roundTrip16Default : Obligations.RoundTrip16Default := by
  intro s a x hs hb hsg hw hx
  obtain ⟨r, hr, hn, hfields⟩ := encodeResponse16_literal hb hx
  obtain ⟨henc, hdec⟩ := responseTo_roundTrip (w := .w16) hs hw hr hn
  have hval : 0 < x →
      valueQ (word16Value false r) = roundQ s.params.ties (scaledQ 9 x) * 2 ^ (exponentQ x - 9) := by
    intro hpos
    obtain ⟨hm, he⟩ := hfields hpos.ne'
    exact valueQ_word16_unsigned hpos hm he
  rw [decodedValue, hsg] at hdec
  refine ⟨r, _, henc, hdec, fun hpos hlt => ?_, fun hle => ?_, fun _ => signBit_toIeee_word16_unsigned r⟩
  · have hv := hval hpos
    refine ⟨_, (toIeee_rounded16 hx hv).1 (by rwa [abs_of_pos hpos]), hv, ?_⟩
    rw [hv]
    exact abs_rounded_sub_le s.params.ties 9 x
  · exact (toIeee_rounded16 hx (hval (by linarith))).2.1 hle

/-- Settles O48: the fields of the word, read as two's complement, are the corrected pair, which stands for the rounding
of the input; `toIeee_rounded16` decodes it. -/
theorem roundTrip16Alternative : Obligations.RoundTrip16Alternative := by
  intro s a x hs hb hsg hw hx
  obtain ⟨r, m, e, hc, hr, hm, he, hn, hlo, hhi, -, -⟩ := encodeResponse_word (w := .w16) (p := s.params) hb hx
  obtain ⟨henc, hdec⟩ := responseTo_roundTrip (w := .w16) hs hw hr hn
  obtain ⟨helo, hehi⟩ := correctedExponent16_fits (2 ^ 9) (roundQ s.params.ties (scaledQ 9 x)) hx
  have hcor := Corrected_exponent hc
  obtain ⟨hmi, hei⟩ := toInt_fields hm he hlo hhi (hcor ▸ helo) (hcor ▸ hehi)
  have hval : valueQ (word16Value true r) = m * 2 ^ (e - 9) := by
    rw [← hmi, ← hei]
    rfl
  have hround : (m : ℚ) * 2 ^ (e - 9) = roundQ s.params.ties (scaledQ 9 x) * 2 ^ (exponentQ x - 9) :=
    Corrected_value hc (even_two.pow_of_ne_zero (by decide)) 9
  obtain ⟨hexact, hpinf, hninf⟩ := toIeee_rounded16 hx (hval.trans hround)
  rw [decodedValue, hsg] at hdec
  refine ⟨r, _, henc, hdec, fun hlt => ⟨_, m, e, hexact hlt, hc, hval, ?_⟩, hpinf, hninf⟩
  rw [hval, hround]
  exact abs_rounded_sub_le s.params.ties 9 x

end Sys2Proof.Proofs
end

section
/-!
PROOFS. The statements of 60_exceptions.md: which condition a request raises, that a request without one is answered OK,
that nothing is left behind by a response, and that the copies of a platform are independent.
-/

namespace Sys2Proof.Proofs

open Sys2Proof.Machine Sys2Proof.Laws Sys2Proof.Safety

/-! ### Copies of the block (R216) -/

/-- R235: every step ends in a next state. -/
theorem step_total (s : State) : ∃ t, step s = .next t := by
  cases hr : s.request with
  | none => exact ⟨s, step_none hr⟩
  | some rq => exact ⟨_, step_some hr⟩

section
variable {pf qf : Platform} {k : ℕ}

theorem stepAt_other (h : pf.stepAt k = .next qf) {j : ℕ} (hj : j ≠ k) :
    qf.instances[j]? = pf.instances[j]? := by
  obtain ⟨-, rfl⟩ | ⟨s, t, -, -, rfl⟩ := stepAt_cases h
  · rfl
  · exact setAt_other pf t hj

theorem stepAt_self (h : pf.stepAt k = .next qf) {s : State} (hk : pf.instances[k]? = some s) :
    ∃ t, step s = .next t ∧ qf.instances[k]? = some t := by
  obtain ⟨t, ht⟩ := step_total s
  rw [stepAt_some hk ht] at h
  cases h
  exact ⟨t, ht, setAt_self hk t⟩

theorem stepAt_comm {pf' : Platform} {j : ℕ} (hj : j ≠ k) (hk : pf.stepAt k = .next pf')
    (hq : pf.stepAt j = .next qf) : ∃ last, pf'.stepAt j = .next last ∧ qf.stepAt k = .next last := by
  have hother : pf'.instances[j]? = pf.instances[j]? := stepAt_other hk hj
  have hother' : qf.instances[k]? = pf.instances[k]? := stepAt_other hq hj.symm
  obtain ⟨hnone, rfl⟩ | ⟨s, t, hs, ht, rfl⟩ := stepAt_cases hk
  · exact ⟨qf, hq, stepAt_none (hother'.trans hnone)⟩
  obtain ⟨hnone, rfl⟩ | ⟨s', t', hs', ht', rfl⟩ := stepAt_cases hq
  · exact ⟨_, stepAt_none (hother.trans hnone), hk⟩
  · refine ⟨_, stepAt_some (hother.trans hs') ht', ?_⟩
    rw [setAt_comm pf t t' hj.symm]
    exact stepAt_some (hother'.trans hs) ht

end

/-- Settles O18: a step of copy k is a lone block's step whose outcome takes copy k's place. -/
theorem instancesIndependent : Obligations.InstancesIndependent := fun _ _ _ hk =>
  ⟨fun _ => stepAt_other hk, fun _ => stepAt_self hk, fun _ _ hj => stepAt_comm hj hk⟩

/-! ### Nothing left behind (R210, R231) -/

/-- Settles O17: a response is `respondTo` of the parameters and the request, and neither a step nor reset writes the
parameters. -/
theorem nothingLeftBehind : Obligations.NothingLeftBehind := by
  intro s u t rq rq' hu ht
  obtain ⟨hs, rfl⟩ := issue_cases hu
  have hready := step_ready ht
  rw [step_drive] at ht
  cases ht
  exact ⟨_, responseTo_eq hs rq', responseTo_eq hready rq', responseTo_eq (unanswered_build s.params) rq'⟩

/-! ### Which condition is raised (R202 to R207) -/

/-- R207: a response names the FIRST condition that applies, so no other response is right where a condition is. -/
theorem eq_raised_of_rightResponse {rq : Request} :
    ∀ {r : Response} {c : Condition}, RightResponse rq r → RightResponse rq (.raised c) → r = .raised c
  | .raised .illegalOperation, .illegalOperation, _, _ => rfl
  | .raised .illegalOperand, .illegalOperation, ⟨hop, _⟩, hres => absurd hres hop
  | .raised .nonFiniteInput, .illegalOperation, ⟨hop, _⟩, hres => absurd hres hop
  | .ok _, .illegalOperation, ⟨hop, _⟩, hres => absurd hres hop
  | .raised .illegalOperation, .illegalOperand, hres, ⟨hop, _⟩ => absurd hres hop
  | .raised .illegalOperand, .illegalOperand, _, _ => rfl
  | .raised .nonFiniteInput, .illegalOperand, ⟨_, hnarrow, _⟩, ⟨_, hwide⟩ => absurd hwide hnarrow
  | .ok _, .illegalOperand, ⟨_, hnarrow, _⟩, ⟨_, hwide⟩ => absurd hwide hnarrow
  | .raised .illegalOperation, .nonFiniteInput, hres, ⟨hop, _⟩ => absurd hres hop
  | .raised .illegalOperand, .nonFiniteInput, ⟨_, hwide⟩, ⟨_, hnarrow, _⟩ => absurd hwide hnarrow
  | .raised .nonFiniteInput, .nonFiniteInput, _, _ => rfl
  | .ok _, .nonFiniteInput, ⟨_, _, hfin, _⟩, ⟨_, _, hnonfin⟩ => absurd hnonfin hfin

theorem respondTo_eq_raised_iff (p : Params) (rq : Request) (c : Condition) :
    respondTo p rq = .raised c ↔ RightResponse rq (.raised c) :=
  ⟨fun h => h ▸ rightResponse_respondTo p rq, eq_raised_of_rightResponse (rightResponse_respondTo p rq)⟩

/-- R206: where none of the three conditions applies, the right responses are OK. -/
theorem eq_ok_of_rightResponse {rq : Request} {r : Response} (h : RightResponse rq r) (hop : ¬ReservedOp rq.op)
    (hnarrow : ¬WideOperand rq) (hfin : ¬NonFiniteOperand rq) :
    ∃ v, r = .ok v ∧ v >>> resultWidth rq.op = 0 := by
  match r, h with
  | .raised .illegalOperation, hres => exact absurd hres hop
  | .raised .illegalOperand, ⟨_, hwide⟩ => exact absurd hwide hnarrow
  | .raised .nonFiniteInput, ⟨_, _, hnonfin⟩ => exact absurd hnonfin hfin
  | .ok v, ⟨_, _, _, hv⟩ => exact ⟨v, rfl, hv⟩

theorem answered_inj {s : State} {r r' : Response} : s.answered r = s.answered r' ↔ r = r' :=
  ⟨fun h => Option.some.inj (congrArg State.response h), congrArg s.answered⟩

/-- The step's own form of `respondTo_eq_raised_iff`, which every statement about a raised condition cites. -/
theorem step_eq_raised_iff {s : State} {rq : Request} (hr : s.request = some rq) (c : Condition) :
    step s = .next { s with response := some (.raised c) } ↔ RightResponse rq (.raised c) := by
  rw [step_some hr, ← answered_eq, Host.Outcome.next.injEq, answered_inj, respondTo_eq_raised_iff]

/-- Settles O19: for a reserved OP the condition IllegalOperation is right, whatever A. -/
theorem reservedOpRaises : Obligations.ReservedOpRaises :=
  fun _ _ _ hop hr => (step_eq_raised_iff hr .illegalOperation).mpr hop

/-- Settles O22: the premises of each clause say that its condition is the right response. -/
theorem conditionPriority : Obligations.ConditionPriority := fun _ _ hr =>
  ⟨(step_eq_raised_iff hr .illegalOperation).mpr,
    fun hop hwide => (step_eq_raised_iff hr .illegalOperand).mpr ⟨hop, hwide⟩,
    fun hop hnarrow hnonfin => (step_eq_raised_iff hr .nonFiniteInput).mpr ⟨hop, hnarrow, hnonfin⟩⟩

/-- Settles O23: the response to the request is right, and no condition is. -/
theorem nothingElseRaised : Obligations.NothingElseRaised := by
  intro s rq hr hop hnarrow hfin
  obtain ⟨v, hv, hwidth⟩ := eq_ok_of_rightResponse (rightResponse_respondTo s.params rq) hop hnarrow hfin
  exact ⟨v, by rw [step_some hr, hv, answered_eq], hwidth⟩

/-- R204: for an operation the condition is the width check's alone. -/
theorem illegalOperand_requestOf (i : Instr) :
    RightResponse (requestOf i) (.raised .illegalOperand) ↔ i.operand >>> i.operandBits ≠ 0 :=
  (and_iff_right (not_reservedOp_requestOf i)).trans wideOperand_requestOf

/-- R205: for an operation the condition is the exponent field's, behind the width check. -/
theorem nonFiniteInput_requestOf (i : Instr) :
    RightResponse (requestOf i) (.raised .nonFiniteInput) ↔
      i.operand >>> i.operandBits = 0 ∧ NonFiniteOperand (requestOf i) :=
  (and_iff_right (not_reservedOp_requestOf i)).trans
    (and_congr_left' ((not_congr wideOperand_requestOf).trans not_not))

/-- R204: the operations with required-zero bits, by the width of their operand. -/
theorem illegalOperand_iff (rq : Request) :
    RightResponse rq (.raised .illegalOperand) ↔
      ((rq.op = 0b000#3 ∨ rq.op = 0b100#3) ∧ rq.a >>> 16 ≠ 0) ∨
      ((rq.op = 0b001#3 ∨ rq.op = 0b101#3) ∧ rq.a >>> 32 ≠ 0) ∨
      (rq.op = 0b110#3 ∧ rq.a >>> 48 ≠ 0) := by
  obtain ⟨i, rfl⟩ | hres := request_cases rq
  · rw [illegalOperand_requestOf]
    cases i <;> simp [requestOf, opcodeOf, Instr.operand, Instr.operandBits, ushiftRight_64]
  · refine iff_of_false (fun ⟨hop, _⟩ => hop hres) ?_
    obtain h | h := hres <;> simp [h]

/-- R101, R205: the encoders and their exponent fields; ENC48 has no width check to pass. -/
theorem nonFiniteInput_iff (rq : Request) :
    RightResponse rq (.raised .nonFiniteInput) ↔
      (rq.op = 0b000#3 ∧ rq.a >>> 16 = 0 ∧ rq.a.extractLsb' 10 5 = 0x1F#5) ∨
      (rq.op = 0b001#3 ∧ rq.a >>> 32 = 0 ∧ rq.a.extractLsb' 23 8 = 0xFF#8) ∨
      (rq.op = 0b010#3 ∧ rq.a.extractLsb' 52 11 = 0x7FF#11) := by
  obtain ⟨i, rfl⟩ | hres := request_cases rq
  · rw [nonFiniteInput_requestOf]
    cases i <;>
      simp [NonFiniteOperand, requestOf, opcodeOf, Instr.operand, Instr.operandBits, ushiftRight_64]
  · refine iff_of_false (fun ⟨hop, _⟩ => hop hres) ?_
    obtain h | h := hres <;> simp [h]

/-- Settles O20: IllegalOperand is raised exactly where it is right. -/
theorem illegalOperandExactly : Obligations.IllegalOperandExactly := fun _ _ _ hr =>
  (step_eq_raised_iff hr .illegalOperand).trans (illegalOperand_iff _)

/-- Settles O21: NonFiniteInput is raised exactly where it is right. -/
theorem nonFiniteInputExactly : Obligations.NonFiniteInputExactly := fun _ _ _ hr =>
  (step_eq_raised_iff hr .nonFiniteInput).trans (nonFiniteInput_iff _)

end Sys2Proof.Proofs
end
